-- ==== Sys2Proof/Word.lean ====
section
/-! DEFINITION. The word types of the machine (00_scope.md R4, R5) and the index types its instructions use. -/

namespace Sys2Proof

/-- A 16-bit value: an instruction word, `pc`, `I`, a call-stack slot (R4: `PC_W`, `I_W`). -/
abbrev Word := BitVec 16

/-- An 8-bit value: a general register, a timer, a byte of memory (R4: `REG_W`, `TIMER_W`). -/
abbrev Byte := BitVec 8

/-- A 12-bit address operand `NNN` (R41). -/
abbrev Addr12 := BitVec 12

/-- The index of a general register, the field `X` or `Y` (R11, R41). -/
abbrev RegIx := Fin 16

/-- The row count `N` of `DRW` (R43: "an unsigned row count 0 to 15"). -/
abbrev Rows := Fin 16

/-- A key value, 0 to 15 (R21, R101). -/
abbrev Key := Fin 16

/-- `VF`, the register that flag-writing instructions also write (R12). -/
abbrev flagReg : RegIx := 15

end Sys2Proof
end

