-- ==== Sys2Proof/Config.lean ====
section
/-! DEFINITION. The parameters of 00_scope.md R4: their types, the value the spec takes for each, and the one free value, the
random byte. -/

namespace Sys2Proof

/-- R71, D6: how `SHL` computes its flag. -/
inductive ShlFlagRule where
  /-- 1 iff the value before the shift exceeds 7. -/
  | gt7
  /-- Bit 7 of the value before the shift. -/
  | bit7
  deriving DecidableEq, Repr

/-- R85, D10: what `DRW` does with a pixel beyond the 64 by 32 area. -/
inductive DrawEdge where
  /-- Column modulo 64, row modulo 32, pixel by pixel. -/
  | wrap
  /-- The pixel is skipped. -/
  | clip
  deriving DecidableEq, Repr

/-- `FONT_LEN` bytes: sixteen glyphs of five (R4, R110). -/
abbrev Font := Vector Byte 80

/-- A row of the opcode table (R44): a word selects the row when its bits under the mask are the match. -/
structure OpcodeRow where
  /-- the mask column -/
  mask : Word
  /-- the match column -/
  value : Word
  deriving DecidableEq, Repr

/-- The mask and match columns of the table, row 1 first (R4 "opcode numerals", R44). -/
abbrev Numerals := Vector OpcodeRow 35

/-- The named parameters of the model: those of R4 whose ground is a decision or general knowledge and that have another value
(`SHIFT_SRC` has none, D7). Fixed for a machine, no part of its state (R24): the type of states, and through it every meaning,
takes them as an argument, so that another value can be instantiated (log 27). -/
structure Params where
  /-- `STACK_DEPTH`, any value of at least 1 (D4) -/
  stackDepth : Nat
  /-- `FONT` (D23) -/
  font : Font
  /-- `SHL_FLAG_RULE` (D6) -/
  shlFlagRule : ShlFlagRule
  /-- `DRAW_EDGE` (D10) -/
  drawEdge : DrawEdge
  /-- the opcode numerals (D1) -/
  numerals : Numerals
  deriving DecidableEq, Repr

/-- `MEM_SIZE` (R4, R25). -/
abbrev Config.memSize : Nat := 4096

/-- `ENTRY` (R4, R110). -/
abbrev Config.entry : Word := 0x200#16

/-- `ROM_MAX` (R4, R112). -/
abbrev Config.romMax : Nat := 0x0E00

/-- `STACK_DEPTH` (R4, R16, D4). DESIGN CHOICE of the spec, log 5. -/
abbrev Config.stackDepth : Nat := 16

/-- `SHL_FLAG_RULE` (R4, R71, D6), log 6. -/
abbrev Config.shlFlagRule : ShlFlagRule := .gt7

/-- `DRAW_EDGE` (R4, R85, D10), log 7. -/
abbrev Config.drawEdge : DrawEdge := .wrap

/-- `FB_W` (R4, R20). -/
abbrev Config.fbWidth : Nat := 64

/-- `FB_H` (R4, R20). -/
abbrev Config.fbHeight : Nat := 32

/-- `FONT` (R4, R110, D23) at the value the spec takes, digits 0 to F. PRESUMED (general knowledge in the spec), log 8. -/
def Config.font : Font :=
  ⟨List.toArray <|
    [0xF0, 0x90, 0x90, 0x90, 0xF0] ++  -- 0
    [0x20, 0x60, 0x20, 0x20, 0x70] ++  -- 1
    [0xF0, 0x10, 0xF0, 0x80, 0xF0] ++  -- 2
    [0xF0, 0x10, 0xF0, 0x10, 0xF0] ++  -- 3
    [0x90, 0x90, 0xF0, 0x10, 0x10] ++  -- 4
    [0xF0, 0x80, 0xF0, 0x10, 0xF0] ++  -- 5
    [0xF0, 0x80, 0xF0, 0x90, 0xF0] ++  -- 6
    [0xF0, 0x10, 0x20, 0x40, 0x40] ++  -- 7
    [0xF0, 0x90, 0xF0, 0x90, 0xF0] ++  -- 8
    [0xF0, 0x90, 0xF0, 0x10, 0xF0] ++  -- 9
    [0xF0, 0x90, 0xF0, 0x90, 0x90] ++  -- A
    [0xE0, 0x90, 0xE0, 0x90, 0xE0] ++  -- B
    [0xF0, 0x80, 0x80, 0x80, 0xF0] ++  -- C
    [0xE0, 0x90, 0x90, 0x90, 0xE0] ++  -- D
    [0xF0, 0x80, 0xF0, 0x80, 0xF0] ++  -- E
    [0xF0, 0x80, 0xF0, 0x80, 0x80],    -- F
    rfl⟩

/-- The opcode numerals (R4, R44, D1) at the value the spec takes: rows 1 to 35 of the table. PRESUMED (general knowledge in the
spec), log 1. -/
def Config.numerals : Numerals :=
  ⟨List.toArray <|
    [⟨0xF000, 0x0000⟩, ⟨0xFFFF, 0x00E0⟩, ⟨0xFFFF, 0x00EE⟩, ⟨0xF000, 0x1000⟩, ⟨0xF000, 0x2000⟩] ++
    [⟨0xF000, 0x3000⟩, ⟨0xF000, 0x4000⟩, ⟨0xF00F, 0x5000⟩, ⟨0xF000, 0x6000⟩, ⟨0xF000, 0x7000⟩] ++
    [⟨0xF00F, 0x8000⟩, ⟨0xF00F, 0x8001⟩, ⟨0xF00F, 0x8002⟩, ⟨0xF00F, 0x8003⟩, ⟨0xF00F, 0x8004⟩] ++
    [⟨0xF00F, 0x8005⟩, ⟨0xF00F, 0x8006⟩, ⟨0xF00F, 0x8007⟩, ⟨0xF00F, 0x800E⟩, ⟨0xF00F, 0x9000⟩] ++
    [⟨0xF000, 0xA000⟩, ⟨0xF000, 0xB000⟩, ⟨0xF000, 0xC000⟩, ⟨0xF000, 0xD000⟩, ⟨0xF0FF, 0xE09E⟩] ++
    [⟨0xF0FF, 0xE0A1⟩, ⟨0xF0FF, 0xF007⟩, ⟨0xF0FF, 0xF00A⟩, ⟨0xF0FF, 0xF015⟩, ⟨0xF0FF, 0xF018⟩] ++
    [⟨0xF0FF, 0xF01E⟩, ⟨0xF0FF, 0xF029⟩, ⟨0xF0FF, 0xF033⟩, ⟨0xF0FF, 0xF055⟩, ⟨0xF0FF, 0xF065⟩],
    rfl⟩

/-- The parameters of this hardware: each at the value the spec takes. -/
abbrev Config.params : Params where
  stackDepth := Config.stackDepth
  font := Config.font
  shlFlagRule := Config.shlFlagRule
  drawEdge := Config.drawEdge
  numerals := Config.numerals

/-- The random byte of the n-th `Step` that draws one (R61, D3: "a free 8-bit input drawn afresh for every `Step`, under
no law"). A free value: it has no body, so nothing can be proved about a value of it. DESIGN CHOICE of form, log 3. -/
opaque Config.rnd : Nat → Byte

end Sys2Proof
end

