-- ==== Sys2Proof/Syntax.lean ====
section
/-! DEFINITION. The instructions: one constructor per row of spec/opcode_table.json, in the table's order (30_encoding.md R44). -/

namespace Sys2Proof

/-- An instruction. `x`, `y` are register indices, `nn` a byte, `nnn` a 12-bit address, `n` a row count (R41, R43). The
ignored fields (`nnn` of `SYS`, `y` of `SHR` and `SHL`, `x` of `LD Vx, K`) are kept, so that no bit of a word is lost. -/
inductive Instr where
  /-- `0NNN` `SYS addr`, R50 -/
  | sys (nnn : Addr12)
  /-- `00E0` `CLS`, R84 -/
  | cls
  /-- `00EE` `RET`, R51 -/
  | ret
  /-- `1NNN` `JP addr`, R52 -/
  | jp (nnn : Addr12)
  /-- `2NNN` `CALL addr`, R53 -/
  | call (nnn : Addr12)
  /-- `3XNN` `SE Vx, byte`, R55 -/
  | seByte (x : RegIx) (nn : Byte)
  /-- `4XNN` `SNE Vx, byte`, R56 -/
  | sneByte (x : RegIx) (nn : Byte)
  /-- `5XY0` `SE Vx, Vy`, R57 -/
  | seReg (x y : RegIx)
  /-- `6XNN` `LD Vx, byte`, R59 -/
  | ldByte (x : RegIx) (nn : Byte)
  /-- `7XNN` `ADD Vx, byte`, R60 -/
  | addByte (x : RegIx) (nn : Byte)
  /-- `8XY0` `LD Vx, Vy`, R63 -/
  | ldReg (x y : RegIx)
  /-- `8XY1` `OR Vx, Vy`, R64 -/
  | orReg (x y : RegIx)
  /-- `8XY2` `AND Vx, Vy`, R65 -/
  | andReg (x y : RegIx)
  /-- `8XY3` `XOR Vx, Vy`, R66 -/
  | xorReg (x y : RegIx)
  /-- `8XY4` `ADD Vx, Vy`, R67 -/
  | addReg (x y : RegIx)
  /-- `8XY5` `SUB Vx, Vy`, R68 -/
  | sub (x y : RegIx)
  /-- `8XY6` `SHR Vx {, Vy}`, R69 -/
  | shr (x y : RegIx)
  /-- `8XY7` `SUBN Vx, Vy`, R70 -/
  | subn (x y : RegIx)
  /-- `8XYE` `SHL Vx {, Vy}`, R71 -/
  | shl (x y : RegIx)
  /-- `9XY0` `SNE Vx, Vy`, R58 -/
  | sneReg (x y : RegIx)
  /-- `ANNN` `LD I, addr`, R78 -/
  | ldI (nnn : Addr12)
  /-- `BNNN` `JP V0, addr`, R54 -/
  | jpV0 (nnn : Addr12)
  /-- `CXNN` `RND Vx, byte`, R61 -/
  | rnd (x : RegIx) (nn : Byte)
  /-- `DXYN` `DRW Vx, Vy, nibble`, R85 -/
  | drw (x y : RegIx) (n : Rows)
  /-- `EX9E` `SKP Vx`, R72 -/
  | skp (x : RegIx)
  /-- `EXA1` `SKNP Vx`, R73 -/
  | sknp (x : RegIx)
  /-- `FX07` `LD Vx, DT`, R74 -/
  | ldVxDt (x : RegIx)
  /-- `FX0A` `LD Vx, K`, R75 -/
  | ldVxK (x : RegIx)
  /-- `FX15` `LD DT, Vx`, R76 -/
  | ldDtVx (x : RegIx)
  /-- `FX18` `LD ST, Vx`, R77 -/
  | ldStVx (x : RegIx)
  /-- `FX1E` `ADD I, Vx`, R79 -/
  | addI (x : RegIx)
  /-- `FX29` `LD F, Vx`, R80 -/
  | ldF (x : RegIx)
  /-- `FX33` `LD B, Vx`, R81 -/
  | ldB (x : RegIx)
  /-- `FX55` `LD [I], Vx`, R82 -/
  | ldMemVx (x : RegIx)
  /-- `FX65` `LD Vx, [I]`, R83 -/
  | ldVxMem (x : RegIx)
  deriving DecidableEq, Repr

end Sys2Proof
end

