-- ==== Sys2Proof/Decode.lean ====
section
/-! DEFINITION. The decoder, total on any bytes (30_encoding.md R40 to R47), and after it the encoder and the opcode table
(R44) as data. The numerals are the spec's parameter (R4, D1): PRESUMED, log 1. -/

namespace Sys2Proof

/-- Why bytes are no instruction: one name per unsupported row of R46 (but for class 0, whose unsupported words are the
instruction `SYS`), and one for fewer than two bytes. -/
inductive Reject where
  /-- `5XYN` with `N` not 0 -/
  | class5 (n : Rows)
  /-- `8XYN` with `N` in 8, 9, A, B, C, D, F -/
  | class8 (n : Rows)
  /-- `9XYN` with `N` not 0 -/
  | class9 (n : Rows)
  /-- `EXNN` with `NN` neither 9E nor A1 -/
  | classE (nn : Byte)
  /-- `FXNN` with `NN` none of the nine -/
  | classF (nn : Byte)
  /-- fewer than the two bytes of an instruction (R40) -/
  | truncated
  deriving DecidableEq, Repr

/-! Fields of an instruction word (R41). -/

/-- `w[15:12]` -/
def fieldClass (w : Word) : BitVec 4 := w.extractLsb' 12 4
/-- `w[11:8]` -/
def fieldX (w : Word) : RegIx := (w.extractLsb' 8 4).toFin
/-- `w[7:4]` -/
def fieldY (w : Word) : RegIx := (w.extractLsb' 4 4).toFin
/-- `w[3:0]` -/
def fieldN (w : Word) : Rows := (w.extractLsb' 0 4).toFin
/-- `w[7:0]` -/
def fieldNN (w : Word) : Byte := w.extractLsb' 0 8
/-- `w[11:0]` -/
def fieldNNN (w : Word) : Addr12 := w.extractLsb' 0 12

/-! The decoding procedure (R45), class by class. -/

/-- Class 0: the whole word selects `CLS` and `RET`, anything else is `SYS`. -/
def decodeClass0 (w : Word) : Instr :=
  if w = 0x00E0#16 then .cls else if w = 0x00EE#16 then .ret else .sys (fieldNNN w)

/-- Class 8: `N` selects. -/
def decodeClass8 (x y : RegIx) (n : Rows) : Except Reject Instr :=
  match n.val with
  | 0x0 => .ok (.ldReg x y)
  | 0x1 => .ok (.orReg x y)
  | 0x2 => .ok (.andReg x y)
  | 0x3 => .ok (.xorReg x y)
  | 0x4 => .ok (.addReg x y)
  | 0x5 => .ok (.sub x y)
  | 0x6 => .ok (.shr x y)
  | 0x7 => .ok (.subn x y)
  | 0xE => .ok (.shl x y)
  | _ => .error (.class8 n)

/-- Class E: `NN` selects. -/
def decodeClassE (x : RegIx) (nn : Byte) : Except Reject Instr :=
  if nn = 0x9E#8 then .ok (.skp x)
  else if nn = 0xA1#8 then .ok (.sknp x)
  else .error (.classE nn)

/-- Class F: `NN` selects. -/
def decodeClassF (x : RegIx) (nn : Byte) : Except Reject Instr :=
  if nn = 0x07#8 then .ok (.ldVxDt x)
  else if nn = 0x0A#8 then .ok (.ldVxK x)
  else if nn = 0x15#8 then .ok (.ldDtVx x)
  else if nn = 0x18#8 then .ok (.ldStVx x)
  else if nn = 0x1E#8 then .ok (.addI x)
  else if nn = 0x29#8 then .ok (.ldF x)
  else if nn = 0x33#8 then .ok (.ldB x)
  else if nn = 0x55#8 then .ok (.ldMemVx x)
  else if nn = 0x65#8 then .ok (.ldVxMem x)
  else .error (.classF nn)

/-- The instruction a word selects (R45), or the reason it selects none. It reads the word alone (R47). -/
def decode (w : Word) : Except Reject Instr :=
  match (fieldClass w).toNat with
  | 0x0 => .ok (decodeClass0 w)
  | 0x1 => .ok (.jp (fieldNNN w))
  | 0x2 => .ok (.call (fieldNNN w))
  | 0x3 => .ok (.seByte (fieldX w) (fieldNN w))
  | 0x4 => .ok (.sneByte (fieldX w) (fieldNN w))
  | 0x5 => if fieldN w = 0 then .ok (.seReg (fieldX w) (fieldY w)) else .error (.class5 (fieldN w))
  | 0x6 => .ok (.ldByte (fieldX w) (fieldNN w))
  | 0x7 => .ok (.addByte (fieldX w) (fieldNN w))
  | 0x8 => decodeClass8 (fieldX w) (fieldY w) (fieldN w)
  | 0x9 => if fieldN w = 0 then .ok (.sneReg (fieldX w) (fieldY w)) else .error (.class9 (fieldN w))
  | 0xA => .ok (.ldI (fieldNNN w))
  | 0xB => .ok (.jpV0 (fieldNNN w))
  | 0xC => .ok (.rnd (fieldX w) (fieldNN w))
  | 0xD => .ok (.drw (fieldX w) (fieldY w) (fieldN w))
  | 0xE => decodeClassE (fieldX w) (fieldNN w)
  | _ => decodeClassF (fieldX w) (fieldNN w)  -- 0xF, the one class left of a 4-bit field

/-- Two bytes as an instruction word, the byte at the lower address in bits 15 to 8 (R30, R40). -/
def wordOfBytes (hi lo : Byte) : Word := hi ++ lo

/-- The bytes of an instruction word in the order memory holds them (R31). -/
def bytesOfWord (w : Word) : Byte × Byte := (w.extractLsb' 8 8, w.extractLsb' 0 8)

/-- The first instruction of a list of bytes, and the bytes after it (R40). -/
def decodeBytes : List Byte → Except Reject (Instr × List Byte)
  | hi :: lo :: rest => (decode (wordOfBytes hi lo)).map (·, rest)
  | _ => .error .truncated

/-- The instruction the decoder reads from the word `w` of `nbits` bits, laid out as memory holds it; bits above `nbits`
are 0. Every instruction is one 16-bit word (R40), so bit 0 of the table is bit 0 of the word. -/
def decodeTableWord (nbits w : Nat) : Option Instr :=
  let b := bytesOfWord (BitVec.ofNat 16 (w % 2 ^ nbits))
  match decodeBytes [b.1, b.2] with
  | .ok (i, _) => some i
  | .error _ => none

/-! The encoder, from the formats of R42 and the patterns of R44. -/

/-- A register index or row count as the nibble of a word. -/
def nibble (k : Fin 16) : BitVec 4 := BitVec.ofFin (w := 4) k

/-- Format `NNN`: `c N N N` -/
def encodeNNN (c : BitVec 4) (nnn : Addr12) : Word := c ++ nnn
/-- Format `XNN`, and format `X` with `nn` fixed: `c X N N` -/
def encodeXNN (c : BitVec 4) (x : RegIx) (nn : Byte) : Word := c ++ (nibble x ++ nn)
/-- Format `XYN`, and format `XY` with `n` fixed: `c X Y N` -/
def encodeXYN (c : BitVec 4) (x y : RegIx) (n : Rows) : Word := c ++ (nibble x ++ (nibble y ++ nibble n))

/-- The word of an instruction (R44). -/
def encode : Instr → Word
  | .sys nnn => encodeNNN 0x0 nnn
  | .cls => 0x00E0#16
  | .ret => 0x00EE#16
  | .jp nnn => encodeNNN 0x1 nnn
  | .call nnn => encodeNNN 0x2 nnn
  | .seByte x nn => encodeXNN 0x3 x nn
  | .sneByte x nn => encodeXNN 0x4 x nn
  | .seReg x y => encodeXYN 0x5 x y 0x0
  | .ldByte x nn => encodeXNN 0x6 x nn
  | .addByte x nn => encodeXNN 0x7 x nn
  | .ldReg x y => encodeXYN 0x8 x y 0x0
  | .orReg x y => encodeXYN 0x8 x y 0x1
  | .andReg x y => encodeXYN 0x8 x y 0x2
  | .xorReg x y => encodeXYN 0x8 x y 0x3
  | .addReg x y => encodeXYN 0x8 x y 0x4
  | .sub x y => encodeXYN 0x8 x y 0x5
  | .shr x y => encodeXYN 0x8 x y 0x6
  | .subn x y => encodeXYN 0x8 x y 0x7
  | .shl x y => encodeXYN 0x8 x y 0xE
  | .sneReg x y => encodeXYN 0x9 x y 0x0
  | .ldI nnn => encodeNNN 0xA nnn
  | .jpV0 nnn => encodeNNN 0xB nnn
  | .rnd x nn => encodeXNN 0xC x nn
  | .drw x y n => encodeXYN 0xD x y n
  | .skp x => encodeXNN 0xE x 0x9E
  | .sknp x => encodeXNN 0xE x 0xA1
  | .ldVxDt x => encodeXNN 0xF x 0x07
  | .ldVxK x => encodeXNN 0xF x 0x0A
  | .ldDtVx x => encodeXNN 0xF x 0x15
  | .ldStVx x => encodeXNN 0xF x 0x18
  | .addI x => encodeXNN 0xF x 0x1E
  | .ldF x => encodeXNN 0xF x 0x29
  | .ldB x => encodeXNN 0xF x 0x33
  | .ldMemVx x => encodeXNN 0xF x 0x55
  | .ldVxMem x => encodeXNN 0xF x 0x65

/-! The opcode table (R44) with its numerals as an argument: what a word decodes to and how an instruction is encoded, by the
table's own rule of selection. At the numerals of this hardware the two are `decode` and `encode` above. -/

/-- R44: "A word `w` selects a row when `(w AND mask) = match`". -/
def OpcodeRow.selects (r : OpcodeRow) (w : Word) : Bool := w &&& r.mask == r.value

/-- The row of each instruction, counted from 0 (R44). -/
def Instr.rowIndex : Instr → Fin 35
  | .sys _ => 0
  | .cls => 1
  | .ret => 2
  | .jp _ => 3
  | .call _ => 4
  | .seByte _ _ => 5
  | .sneByte _ _ => 6
  | .seReg _ _ => 7
  | .ldByte _ _ => 8
  | .addByte _ _ => 9
  | .ldReg _ _ => 10
  | .orReg _ _ => 11
  | .andReg _ _ => 12
  | .xorReg _ _ => 13
  | .addReg _ _ => 14
  | .sub _ _ => 15
  | .shr _ _ => 16
  | .subn _ _ => 17
  | .shl _ _ => 18
  | .sneReg _ _ => 19
  | .ldI _ => 20
  | .jpV0 _ => 21
  | .rnd _ _ => 22
  | .drw _ _ _ => 23
  | .skp _ => 24
  | .sknp _ => 25
  | .ldVxDt _ => 26
  | .ldVxK _ => 27
  | .ldDtVx _ => 28
  | .ldStVx _ => 29
  | .addI _ => 30
  | .ldF _ => 31
  | .ldB _ => 32
  | .ldMemVx _ => 33
  | .ldVxMem _ => 34

/-- The instruction of a row, its operands the fields of a word (R41, the format column of R44). -/
def Instr.ofRow (k : Fin 35) (w : Word) : Instr :=
  match k.val with
  | 0 => .sys (fieldNNN w)
  | 1 => .cls
  | 2 => .ret
  | 3 => .jp (fieldNNN w)
  | 4 => .call (fieldNNN w)
  | 5 => .seByte (fieldX w) (fieldNN w)
  | 6 => .sneByte (fieldX w) (fieldNN w)
  | 7 => .seReg (fieldX w) (fieldY w)
  | 8 => .ldByte (fieldX w) (fieldNN w)
  | 9 => .addByte (fieldX w) (fieldNN w)
  | 10 => .ldReg (fieldX w) (fieldY w)
  | 11 => .orReg (fieldX w) (fieldY w)
  | 12 => .andReg (fieldX w) (fieldY w)
  | 13 => .xorReg (fieldX w) (fieldY w)
  | 14 => .addReg (fieldX w) (fieldY w)
  | 15 => .sub (fieldX w) (fieldY w)
  | 16 => .shr (fieldX w) (fieldY w)
  | 17 => .subn (fieldX w) (fieldY w)
  | 18 => .shl (fieldX w) (fieldY w)
  | 19 => .sneReg (fieldX w) (fieldY w)
  | 20 => .ldI (fieldNNN w)
  | 21 => .jpV0 (fieldNNN w)
  | 22 => .rnd (fieldX w) (fieldNN w)
  | 23 => .drw (fieldX w) (fieldY w) (fieldN w)
  | 24 => .skp (fieldX w)
  | 25 => .sknp (fieldX w)
  | 26 => .ldVxDt (fieldX w)
  | 27 => .ldVxK (fieldX w)
  | 28 => .ldDtVx (fieldX w)
  | 29 => .ldStVx (fieldX w)
  | 30 => .addI (fieldX w)
  | 31 => .ldF (fieldX w)
  | 32 => .ldB (fieldX w)
  | 33 => .ldMemVx (fieldX w)
  | _ => .ldVxMem (fieldX w)  -- 34, the last row

/-- The operand bits of an instruction's word (R42); the rest of the word is its row's match column. -/
def Instr.operandBits : Instr → Word
  | .cls | .ret => 0
  | .sys nnn | .jp nnn | .call nnn | .ldI nnn | .jpV0 nnn => encodeNNN 0 nnn
  | .seByte x nn | .sneByte x nn | .ldByte x nn | .addByte x nn | .rnd x nn => encodeXNN 0 x nn
  | .drw x y n => encodeXYN 0 x y n
  | .seReg x y | .sneReg x y | .ldReg x y | .orReg x y | .andReg x y | .xorReg x y => encodeXYN 0 x y 0
  | .addReg x y | .sub x y | .shr x y | .subn x y | .shl x y => encodeXYN 0 x y 0
  | .skp x | .sknp x | .ldVxDt x | .ldVxK x | .ldDtVx x | .ldStVx x => encodeXNN 0 x 0
  | .addI x | .ldF x | .ldB x | .ldMemVx x | .ldVxMem x => encodeXNN 0 x 0

/-- Of two rows that a word selects, the one with the larger mask (R44); the earlier row where the masks are equal, which in the
table of R44 no word makes it. -/
def Numerals.better (t : Numerals) (best : Option (Fin 35)) (k : Fin 35) : Option (Fin 35) :=
  match best with
  | none => some k
  | some b => if (t.get b).mask < (t.get k).mask then some k else some b

/-- The row that a word selects, if any (R44). -/
def Numerals.select (t : Numerals) (w : Word) : Option (Fin 35) :=
  (List.finRange 35).foldl (fun best k => if (t.get k).selects w then t.better best k else best) none

/-- The instruction a word selects under the numerals `t`; none where it selects no row (R44, R46). -/
def decodeUnder (t : Numerals) (w : Word) : Option Instr := (t.select w).map (Instr.ofRow · w)

/-- The word of an instruction under the numerals `t` (R44). -/
def encodeUnder (t : Numerals) (i : Instr) : Word := (t.get i.rowIndex).value ||| i.operandBits

/-- The rows 2 to 35 of the table: those that execute (R44, R46). -/
def executingRows : List OpcodeRow := Config.numerals.toList.tail

/-- The table's row of each instruction. Row 1, `SYS`, is the one that overlaps others (`CLS` and `RET`, whose larger mask
wins, R44). -/
def Instr.row (i : Instr) : OpcodeRow := Config.numerals.get i.rowIndex

end Sys2Proof
end

