-- ==== Sys2Proof/Machine/State.lean ====
section
/-! DEFINITION. The machine state (10_state.md R10), the reasons a step can stop, and the state after reset (R111). -/

namespace Sys2Proof.Machine

/-- Memory `M` (R25) as plain data: the bytes that differ from the reset contents, at strictly rising addresses
(`Memory.wf`). What an unlisted address reads as is `Memory.resetByte`; both are in Machine/Ops.lean (log 12). -/
abbrev Memory := List Host.Cell

/-- The framebuffer `FB` (R20): row `y` is a vector of 64 bits whose bit `x` is the cell `FB[y*64 + x]` (D24 lets a cell
be one bit; log 11). -/
abbrev Framebuffer := Vector (BitVec Config.fbWidth) Config.fbHeight

/-- What the last `Step` that answered a next state reported (R7, R88). The model's own field, log 4. -/
inductive Report where
  /-- `Ok` -/
  | ok
  /-- `UnsupportedOpcode(w, pc)`: the word, and the `pc` it was fetched from (R87, R88) -/
  | unsupportedOpcode (w : Word) (pc : Word)
  deriving DecidableEq, Repr

/-- The machine state: the twelve elements of R10, then three fields of the model's own. The parameters `p` of the machine are
an argument of the type and no part of the state (R24); `State` alone is the type at the values the spec takes (log 27). -/
structure State (p : Params := Config.params) where
  /-- `M`, 4096 bytes (R25) -/
  mem : Memory
  /-- `V[0]` to `V[15]` (R11), `V[15]` the flag `VF` (R12) -/
  v : Vector Byte 16
  /-- `I`, the index register (R13) -/
  i : Word
  /-- `pc` (R14) -/
  pc : Word
  /-- `stack[0]` to `stack[STACK_DEPTH - 1]` (R16) -/
  stack : Vector Word p.stackDepth
  /-- `SP`, the number of slots in use, 0 to `STACK_DEPTH` (R17; log 10) -/
  sp : Fin (p.stackDepth + 1)
  /-- `DT` (R18) -/
  dt : Byte
  /-- `ST` (R19) -/
  st : Byte
  /-- `FB` (R20) -/
  fb : Framebuffer
  /-- the input latch: none, or the one latched key (R21, D16) -/
  latch : Option Key
  /-- `keyWait` (R22) -/
  keyWait : Bool
  /-- `drawReady` (R23) -/
  drawReady : Bool
  /-- The model's own: `rnd`, the argument of the `Step` being executed (R61, R98). A free value, log 3. -/
  rnd : Byte
  /-- The model's own: how many `Step`s have drawn a byte from `Config.rnd` (log 3). -/
  draws : Nat
  /-- The model's own: the outcome the last completed `Step` reported (R7; log 4). -/
  report : Report
  deriving DecidableEq, Repr

/-- The fatal errors a `Step` can report (R87): the state stays as it was before the `Step` (R89 to R91, R94). -/
inductive Fault where
  /-- `StackOverflow(pc)`: raised by `CALL` when `SP` = `STACK_DEPTH` (R53, R89). Safe: the spec's own error. -/
  | stackOverflow (pc : Word)
  /-- `StackUnderflow(pc)`: raised by `RET` when `SP` = 0 (R51, R90). Safe: the spec's own error. -/
  | stackUnderflow (pc : Word)
  /-- `AddressError(a)`: raised by the fetch, `LD B`, `LD [I], Vx`, `LD Vx, [I]` and `DRW` when they would access an
  address above 0xFFF; `a` is the lowest such address (R91, D13). Safe: the spec's own error, chosen to be safe. -/
  | addressError (a : Nat)
  deriving DecidableEq, Repr

/-- Why the model gives an instruction no meaning. -/
inductive Refusal where
  /-- Raised by an arm of `exec` whose instruction has no meaning yet. Safe: nothing can be proved about its effect.
  No arm raises it. -/
  | notModelled (mnemonic : String)
  deriving DecidableEq, Repr

/-- The state after `Reset` (R110, R111) of a machine with the parameters `p`. `rnd`, `draws` and `report` are the model's own
(DESIGN CHOICE, log 3, log 4). -/
def State.resetUnder (p : Params) : State p where
  mem := []
  v := Vector.replicate 16 0#8
  i := 0x0000#16
  pc := Config.entry
  stack := Vector.replicate p.stackDepth 0x0000#16
  sp := 0
  dt := 0x00#8
  st := 0x00#8
  fb := Vector.replicate Config.fbHeight 0#Config.fbWidth
  latch := none
  keyWait := false
  drawReady := false
  rnd := 0x00#8
  draws := 0
  report := .ok

/-- The state after `Reset` (R110, R111). -/
def State.reset : State := State.resetUnder Config.params

end Sys2Proof.Machine
end

