-- ==== Sys2Proof/Machine/Ops.lean ====
section
/-! DEFINITION. The named operations over memory, registers, program counter and call stack that the meanings share, the
report of an unsupported word, and the two ways a `Step` can begin. -/

namespace Sys2Proof.Machine

/-- What a step answers, for the parameters `p` (log 27). -/
abbrev StepOutcome (p : Params := Config.params) := Host.Outcome (State p) Fault Refusal

variable {p : Params}

/-! ## Memory (20_memory.md) -/

/-- What an address that memory does not list reads as: the contents after `Reset`, the font (the machine's parameter `FONT`) at
0x000 to 0x04F and zero everywhere else (R26, R110, R111). -/
def Memory.resetByte (font : Font) (a : Nat) : Byte := (font[a]?).getD 0x00#8

/-- The canonical form from address `lo` on: strictly rising addresses inside `M`, no byte equal to its reset contents. -/
def Memory.wfFrom (font : Font) (lo : Nat) : Memory → Bool
  | [] => true
  | (a, b) :: m => lo ≤ a && a < Config.memSize && b != Memory.resetByte font a && Memory.wfFrom font (a + 1) m

/-- The canonical form of memory (log 12): equal memories are equal lists. -/
def Memory.wf (font : Font) (m : Memory) : Bool := Memory.wfFrom font 0 m

/-- `M[a]` (R25). -/
def Memory.byte (font : Font) : Memory → Nat → Byte
  | [], a => Memory.resetByte font a
  | (a', b') :: m, a => if a = a' then b' else Memory.byte font m a

/-- `M[a] <- b` (R29), in the canonical form: writing the reset contents removes the entry. -/
def Memory.write (font : Font) : Memory → Nat → Byte → Memory
  | [], a, b => if b = Memory.resetByte font a then [] else [(a, b)]
  | (a', b') :: m, a, b =>
    if a < a' then
      if b = Memory.resetByte font a then (a', b') :: m else (a, b) :: (a', b') :: m
    else if a = a' then
      if b = Memory.resetByte font a then m else (a, b) :: m
    else (a', b') :: Memory.write font m a b

/-- The bytes `bs` written at `a`, `a + 1`, ... (R33: ascending addresses). -/
def Memory.writeBytes (font : Font) : Memory → Nat → List Byte → Memory
  | m, _, [] => m
  | m, a, b :: bs => Memory.writeBytes font (Memory.write font m a b) (a + 1) bs

/-- The bounds check of an access to `n` bytes from `a` (R28, R29, R30, R33, D13, D32): addresses are natural numbers and do
not wrap; the error names the lowest address above 0xFFF. An access to no byte has nothing to check (R85, `N` = 0). -/
def checkRange (a n : Nat) : Except Fault Unit :=
  if n = 0 ∨ a + n ≤ Config.memSize then .ok () else .error (.addressError (max a Config.memSize))

/-- `MemRead` of `n` bytes from `a` (R28, R33). -/
def Memory.readBlock (font : Font) (m : Memory) (a n : Nat) : Except Fault (List Byte) :=
  match checkRange a n with
  | .error f => .error f
  | .ok () => .ok ((List.range n).map fun k => Memory.byte font m (a + k))

/-- `MemWrite` of the bytes `bs` from `a` (R29, R33): all of them or none. -/
def Memory.writeBlock (font : Font) (m : Memory) (a : Nat) (bs : List Byte) : Except Fault Memory :=
  match checkRange a bs.length with
  | .error f => .error f
  | .ok () => .ok (Memory.writeBytes font m a bs)

/-- `Fetch(a)` (R30): the big-endian word of the bytes at `a` and `a + 1`. -/
def Memory.fetchWord (font : Font) (m : Memory) (a : Nat) : Except Fault Word :=
  match checkRange a 2 with
  | .error f => .error f
  | .ok () => .ok (wordOfBytes (Memory.byte font m a) (Memory.byte font m (a + 1)))

/-- `M[a]` of a state (R25). -/
def State.byte (s : State p) (a : Nat) : Byte := s.mem.byte p.font a

/-- The canonical form of a state's memory (log 12). -/
def State.canonical (s : State p) : Bool := s.mem.wf p.font

/-! ## Registers -/

/-- `V[x]` (R6, R11). -/
def State.reg (s : State p) (x : RegIx) : Byte := s.v[x]

/-- `V[x] <- b` (R6, R11). No register is hardwired. -/
def State.setReg (s : State p) (x : RegIx) (b : Byte) : State p := { s with v := s.v.set x b }

/-- `V[k] <- bs[k]` for every `k` below the length of `bs`; the other registers keep their values (R83). -/
def State.setRegs (s : State p) (bs : List Byte) : State p :=
  { s with v := Vector.ofFn fun k => (bs[k.val]?).getD s.v[k] }

/-- `V[0]` to `V[x]`, lowest first (R82). -/
def State.regsUpTo (s : State p) (x : RegIx) : List Byte := s.v.toList.take (x.val + 1)

/-- `I <- w` (R13). -/
def State.setI (s : State p) (w : Word) : State p := { s with i := w }

/-- `DT <- b` (R18). -/
def State.setDt (s : State p) (b : Byte) : State p := { s with dt := b }

/-- `ST <- b` (R19). -/
def State.setSt (s : State p) (b : Byte) : State p := { s with st := b }

/-- The memory replaced. -/
def State.setMem (s : State p) (m : Memory) : State p := { s with mem := m }

/-- The framebuffer replaced, and `drawReady <- 1`: the two always go together (R23, R84, R85, D12). -/
def State.setFrame (s : State p) (fb : Framebuffer) : State p := { s with fb := fb, drawReady := true }

/-- `keyWait <- 1` (R22, R75). -/
def State.awaitKey (s : State p) : State p := { s with keyWait := true }

/-- The two machine modes (R97): names for the values of `keyWait`. -/
inductive Mode where
  | running
  | awaitingKey
  deriving DecidableEq, Repr

/-- The mode a state is in (R97). -/
def State.mode (s : State p) : Mode := if s.keyWait then .awaitingKey else .running

/-! ## Program counter (R14) -/

/-- `pc <- target`. -/
def State.setPc (s : State p) (target : Word) : State p := { s with pc := target }

/-- `pc <- (pc + 2) mod 65536`, the normal case. -/
def State.advance (s : State p) : State p := s.setPc (s.pc + 2#16)

/-- `pc <- (pc + 4) mod 65536` if the condition holds, else `pc <- (pc + 2) mod 65536` (41_skips.md). -/
def State.skipIf (s : State p) (taken : Bool) : State p := s.setPc (s.pc + if taken then 4#16 else 2#16)

/-! ## Call stack (R16, R17) -/

/-- `stack[SP] <- pc; SP <- SP + 1`, for a stack that is not full (R53). -/
def State.pushPc (s : State p) (h : s.sp.val < p.stackDepth) : State p :=
  { s with stack := s.stack.set s.sp.val s.pc h, sp := ⟨s.sp.val + 1, Nat.succ_lt_succ h⟩ }

/-- `stack[SP - 1]`, the most recent entry of a stack that is not empty (R17, R51). -/
def State.top (s : State p) (h : s.sp.val ≠ 0) : Word := s.stack[s.sp.val - 1]'(by omega)

/-- `SP <- SP - 1` (R51). The slot keeps its value (R16, D5). -/
def State.pop (s : State p) : State p := { s with sp := ⟨s.sp.val - 1, by omega⟩ }

/-! ## Errors

Fatal errors (`StackOverflow`, `StackUnderflow`, `AddressError`) are answers of their own (`Fault`): nothing is saved, control
goes nowhere and the state is the one before the instruction (R94). The machine has no return from an error (R95). The one
error that changes state is shared by `SYS` and by every word that selects no row: -/

/-- `raise UnsupportedOpcode(w, pc)` (R88): `pc <- (pc + 2) mod 65536`, no other element of the state changes, and the
condition is reported. -/
def State.raiseUnsupported (s : State p) (w : Word) : State p :=
  { s with report := .unsupportedOpcode w s.pc, pc := s.pc + 2#16 }

/-! ## The begin of a `Step` (R98) -/

/-- `Fetch(pc)` (R30, R98 step 2). -/
def State.fetch (s : State p) : Except Fault Word := s.mem.fetchWord p.font s.pc.toNat

/-- A `Step(rnd)` that goes on to fetch: `rnd` is at hand for `RND`, and the report is `Ok` until the instruction says
otherwise. No element of R10 changes. -/
def State.beginStep (s : State p) (rnd : Byte) : State p := { s with rnd := rnd, report := .ok }

/-- A `Step` while `keyWait` = 1: no state changes, outcome `Ok` (R99, D18). -/
def State.holdStep (s : State p) : State p := { s with report := .ok }

/-- One more `Step` has drawn a free byte (log 3). -/
def State.countDraw (s : State p) : State p := { s with draws := s.draws + 1 }

/-- `Step(rnd)` (R98), in its order: the gate of `keyWait`, the fetch, the decoder `dec`, and either the report of an unsupported
word or what `run` says the instruction does. -/
def stepBy (dec : Word → Option Instr) (run : Instr → State p → StepOutcome p) (rnd : Byte) (s : State p) : StepOutcome p :=
  if s.keyWait then .next s.holdStep
  else match s.fetch with
    | .error f => .fault f
    | .ok w => match dec w with
      | none => .next ((s.beginStep rnd).raiseUnsupported w)
      | some i => run i (s.beginStep rnd)

/-- The word `w` stored where the next `Step` fetches, high byte first (R30), and the engine not held by `keyWait` (R99).
Where `pc` > 0xFFE no word can be fetched (R30) and memory stays as it is. -/
def State.placeWord (s : State p) (w : Word) : State p :=
  let b := bytesOfWord w
  match s.mem.writeBlock p.font s.pc.toNat [b.1, b.2] with
  | .ok m => { s with mem := m, keyWait := false }
  | .error _ => s

end Sys2Proof.Machine
end

