-- ==== Sys2Proof/Machine/Flags.lean ====
section
/-! DEFINITION. Every flag the machine computes (R12, R62), and the order in which a result and its flag are written. The flag
of `DRW` is computed with its pixels, in Machine/Display.lean. -/

namespace Sys2Proof.Machine

variable {p : Params}

/-- A flag as the byte written to `VF`: 0x00 or 0x01 (R12). -/
def flagByte (b : Bool) : Byte := if b then 0x01#8 else 0x00#8

/-- `ADD Vx, Vy`: 1 iff the sum exceeds 255 (R67). -/
def carryOut (x y : Byte) : Bool := decide (x.toNat + y.toNat > 255)

/-- `SUB`, `SUBN`: 1 iff `a - b` needs no borrow, `b <= a` (R62 (c), R68, R70). -/
def noBorrow (a b : Byte) : Bool := decide (b.toNat ≤ a.toNat)

/-- `SHR`: the bit shifted out (R69). -/
def shiftedOut (x : Byte) : Bool := x.getLsbD 0

/-- `SHL`: the flag under each value of `SHL_FLAG_RULE` (R71, D6). -/
def shlFlag (rule : ShlFlagRule) (x : Byte) : Bool :=
  match rule with
  | .gt7 => decide (x.toNat > 7)
  | .bit7 => x.getLsbD 7

/-- `V[15] <- flag` (R12). -/
def State.setFlag (s : State p) (b : Bool) : State p := s.setReg flagReg (flagByte b)

/-- The result to `V[x]` first, the flag to `V[15]` second, so that with `x` = 15 the flag remains (R62 (e), D8). -/
def State.setResultAndFlag (s : State p) (x : RegIx) (r : Byte) (b : Bool) : State p := (s.setReg x r).setFlag b

end Sys2Proof.Machine
end

