-- ==== Sys2Proof/Machine/Alu.lean ====
section
/-! DEFINITION. Register-register ALU operations, class 8 (43_alu.md). All operands are read before anything is written (R62
(d)); results are modulo 256 (R62 (a)). -/

namespace Sys2Proof.Machine

variable {p : Params}

/-- `LD Vx, Vy` (R63). -/
def execLdReg (x y : RegIx) (s : State p) : StepOutcome p := .next (s.setReg x (s.reg y)).advance

/-- `OR Vx, Vy` (R64): `VF` is not written (R62 (f), D9). -/
def execOrReg (x y : RegIx) (s : State p) : StepOutcome p := .next (s.setReg x (s.reg x ||| s.reg y)).advance

/-- `AND Vx, Vy` (R65): `VF` is not written. -/
def execAndReg (x y : RegIx) (s : State p) : StepOutcome p := .next (s.setReg x (s.reg x &&& s.reg y)).advance

/-- `XOR Vx, Vy` (R66): `VF` is not written. -/
def execXorReg (x y : RegIx) (s : State p) : StepOutcome p := .next (s.setReg x (s.reg x ^^^ s.reg y)).advance

/-- `ADD Vx, Vy` (R67). -/
def execAddReg (x y : RegIx) (s : State p) : StepOutcome p :=
  .next (s.setResultAndFlag x (s.reg x + s.reg y) (carryOut (s.reg x) (s.reg y))).advance

/-- `SUB Vx, Vy` (R68): `V[X] - V[Y]`. -/
def execSub (x y : RegIx) (s : State p) : StepOutcome p :=
  .next (s.setResultAndFlag x (s.reg x - s.reg y) (noBorrow (s.reg x) (s.reg y))).advance

/-- `SHR Vx {, Vy}` (R69): in place, `y` ignored (`SHIFT_SRC` = vx, D7). -/
def execShr (x _y : RegIx) (s : State p) : StepOutcome p :=
  .next (s.setResultAndFlag x (s.reg x >>> 1) (shiftedOut (s.reg x))).advance

/-- `SUBN Vx, Vy` (R70): `V[Y] - V[X]`, the result to `V[X]`. -/
def execSubn (x y : RegIx) (s : State p) : StepOutcome p :=
  .next (s.setResultAndFlag x (s.reg y - s.reg x) (noBorrow (s.reg y) (s.reg x))).advance

/-- `SHL Vx` under a value of `SHL_FLAG_RULE` (R71). -/
def execShlUnder (rule : ShlFlagRule) (x : RegIx) (s : State p) : StepOutcome p :=
  .next (s.setResultAndFlag x (s.reg x <<< 1) (shlFlag rule (s.reg x))).advance

/-- `SHL Vx {, Vy}` (R71): in place, `y` ignored, the flag under the machine's `SHL_FLAG_RULE`. -/
def execShl (x _y : RegIx) (s : State p) : StepOutcome p := execShlUnder p.shlFlagRule x s

end Sys2Proof.Machine
end

