-- ==== Sys2Proof/Machine/Operands.lean ====
section
/-! DEFINITION. The operand forms (30_encoding.md R42, R43) and the values instructions derive from their operands. A register
operand is `State.reg`; the byte operand `NN` and the row count `N` are used as they stand. -/

namespace Sys2Proof.Machine

variable {p : Params}

/-- `zext_16(NNN)` (R43). -/
def addrOperand (nnn : Addr12) : Word := nnn.setWidth 16

/-- `zext_16(V[x])` (R54, R79). -/
def State.regWide (s : State p) (x : RegIx) : Word := (s.reg x).setWidth 16

/-- The base of every data access: `I` as a natural number, so that `I + offset` does not wrap (45_index_memory.md, R25). -/
def State.base (s : State p) : Nat := s.i.toNat

/-- Whether the latched key equals a register (R72, D16): all 8 bits are compared, and none equals no value. -/
def keyMatches (latch : Option Key) (b : Byte) : Bool :=
  match latch with
  | none => false
  | some k => k.val == b.toNat

/-- `zext_16(b) * 5`, the address of the glyph of a digit, not masked (R80, D20). -/
def glyphAddr (b : Byte) : Word := b.setWidth 16 * 5#16

/-- The decimal digits of a byte, hundreds first (R81). -/
def bcdDigits (b : Byte) : List Byte :=
  [BitVec.ofNat 8 (b.toNat / 100), BitVec.ofNat 8 (b.toNat / 10 % 10), BitVec.ofNat 8 (b.toNat % 10)]

end Sys2Proof.Machine
end

