-- ==== Sys2Proof/Machine/Control.lean ====
section
/-! DEFINITION. Control transfer (40_control_flow.md). -/

namespace Sys2Proof.Machine

variable {p : Params}

/-- `SYS addr` (R50): every such word is unsupported; it is reported, `0NNN` under the numerals of R44. -/
def execSys (nnn : Addr12) (s : State p) : StepOutcome p := .next (s.raiseUnsupported (encodeUnder p.numerals (.sys nnn)))

/-- `RET` (R51): `StackUnderflow` on an empty stack, else `SP <- SP - 1; pc <- stack[SP - 1] + 2`. -/
def execRet (s : State p) : StepOutcome p :=
  if h : s.sp.val ≠ 0 then .next (s.pop.setPc (s.top h + 2#16)) else .fault (.stackUnderflow s.pc)

/-- `JP addr` (R52). -/
def execJp (nnn : Addr12) (s : State p) : StepOutcome p := .next (s.setPc (addrOperand nnn))

/-- `CALL addr` (R53): `StackOverflow` on a full stack, else push the address of this instruction and jump. -/
def execCall (nnn : Addr12) (s : State p) : StepOutcome p :=
  if h : s.sp.val < p.stackDepth then .next ((s.pushPc h).setPc (addrOperand nnn))
  else .fault (.stackOverflow s.pc)

/-- `JP V0, addr` (R54): the sum is not reduced to 12 bits. -/
def execJpV0 (nnn : Addr12) (s : State p) : StepOutcome p := .next (s.setPc (addrOperand nnn + s.regWide 0))

end Sys2Proof.Machine
end

