-- ==== Sys2Proof/Machine/Display.lean ====
section
/-! DEFINITION. The framebuffer (10_state.md R20) and its instructions (46_framebuffer.md). -/

namespace Sys2Proof.Machine

/-- A column and a row of the 64 by 32 bitmap. -/
abbrev Pixel := Fin Config.fbWidth × Fin Config.fbHeight

/-- Whether the cell of pixel (x, y), `FB[y*64 + x]`, is lit (R20). -/
def Framebuffer.lit (fb : Framebuffer) (p : Pixel) : Bool := fb[p.2].getLsbD p.1.val

/-- `FB[k]`, by the index of R20: row-major, 64 cells a row. -/
def Framebuffer.cell (fb : Framebuffer) (k : Fin 2048) : Bool :=
  Framebuffer.lit fb (⟨k.val % 64, Nat.mod_lt _ (by decide)⟩, ⟨k.val / 64, Nat.div_lt_of_lt_mul k.isLt⟩)

/-- `FB[p] <- FB[p] XOR 1` (R85). -/
def Framebuffer.toggle (fb : Framebuffer) (p : Pixel) : Framebuffer :=
  fb.set p.2 (fb[p.2] ^^^ BitVec.twoPow Config.fbWidth p.1.val)

/-- The blank framebuffer (R84, R111). -/
def Framebuffer.blank : Framebuffer := Vector.replicate Config.fbHeight 0#Config.fbWidth

/-- The pixel of row `r`, column `c` of a sprite drawn at (x0, y0), under a value of `DRAW_EDGE` (R85, D10): reduced modulo
the screen under `wrap`; under `clip` a pixel off the screen is none. The origin is never reduced by itself. -/
def targetPixel (edge : DrawEdge) (x0 y0 : Byte) (r c : Nat) : Option Pixel :=
  let px := x0.toNat + c
  let py := y0.toNat + r
  match edge with
  | .wrap => some (⟨px % 64, Nat.mod_lt _ (by decide)⟩, ⟨py % 32, Nat.mod_lt _ (by decide)⟩)
  | .clip => if h : px < 64 ∧ py < 32 then some (⟨px, h.1⟩, ⟨py, h.2⟩) else none

/-- The pixels of the set bits of row `r` of a sprite, left to right; bit 7 is the leftmost (R85, D11). -/
def rowPixels (edge : DrawEdge) (x0 y0 : Byte) (r : Nat) (b : Byte) : List Pixel :=
  (List.range 8).filterMap fun c => if b.getLsbD (7 - c) then targetPixel edge x0 y0 r c else none

/-- The pixels of the set bits of a sprite whose first row is row `r`, row by row. -/
def spritePixels (edge : DrawEdge) (x0 y0 : Byte) : Nat → List Byte → List Pixel
  | _, [] => []
  | r, b :: bs => rowPixels edge x0 y0 r b ++ spritePixels edge x0 y0 (r + 1) bs

/-- The loop of R85 over the pixels of a sprite: `coll` becomes 1 at a lit cell, then the cell is toggled. -/
def togglePixels : Framebuffer × Bool → List Pixel → Framebuffer × Bool
  | d, [] => d
  | (fb, coll), p :: ps => togglePixels (Framebuffer.toggle fb p, coll || Framebuffer.lit fb p) ps

variable {p : Params}

/-- `CLS` (R84): all cells 0, `drawReady` 1, `VF` unchanged. -/
def execCls (s : State p) : StepOutcome p := .next (s.setFrame Framebuffer.blank).advance

/-- `DRW Vx, Vy, nibble` under a value of `DRAW_EDGE` (R85): the coordinates and the sprite bytes are read first, then the
pixels are toggled, `VF` becomes the collision flag and `drawReady` 1. -/
def execDrwUnder (edge : DrawEdge) (x y : RegIx) (n : Rows) (s : State p) : StepOutcome p :=
  match s.mem.readBlock p.font s.base n.val with
  | .error f => .fault f
  | .ok bs =>
    let d := togglePixels (s.fb, false) (spritePixels edge (s.reg x) (s.reg y) 0 bs)
    .next ((s.setFrame d.1).setFlag d.2).advance

/-- `DRW Vx, Vy, nibble` (R85) under the machine's `DRAW_EDGE`. -/
def execDrw (x y : RegIx) (n : Rows) (s : State p) : StepOutcome p := execDrwUnder p.drawEdge x y n s

end Sys2Proof.Machine
end

