-- ==== Sys2Proof/Machine/Immediate.lean ====
section
/-! DEFINITION. Immediate operations (42_immediate.md). None writes `VF` as a flag. -/

namespace Sys2Proof.Machine

variable {p : Params}

/-- `LD Vx, byte` (R59). -/
def execLdByte (x : RegIx) (nn : Byte) (s : State p) : StepOutcome p := .next (s.setReg x nn).advance

/-- `ADD Vx, byte` (R60): modulo 256, no flag. -/
def execAddByte (x : RegIx) (nn : Byte) (s : State p) : StepOutcome p := .next (s.setReg x (s.reg x + nn)).advance

/-- `RND Vx, byte` (R61): the random byte of this `Step` under a mask. -/
def execRnd (x : RegIx) (nn : Byte) (s : State p) : StepOutcome p := .next (s.setReg x (s.rnd &&& nn)).advance

end Sys2Proof.Machine
end

