-- ==== Sys2Proof/Machine/IndexMemory.lean ====
section
/-! DEFINITION. Index register and memory instructions (45_index_memory.md). `I` is never changed by a memory access (D21), and an
instruction that raises `AddressError` writes nothing (R33). -/

namespace Sys2Proof.Machine

variable {p : Params}

/-- `LD I, addr` (R78). -/
def execLdI (nnn : Addr12) (s : State p) : StepOutcome p := .next (s.setI (addrOperand nnn)).advance

/-- `ADD I, Vx` (R79): modulo 65536, `VF` not written. -/
def execAddI (x : RegIx) (s : State p) : StepOutcome p := .next (s.setI (s.i + s.regWide x)).advance

/-- `LD F, Vx` (R80). -/
def execLdF (x : RegIx) (s : State p) : StepOutcome p := .next (s.setI (glyphAddr (s.reg x))).advance

/-- The stores of `LD B` and `LD [I], Vx`: the bytes at `I` upward, all or none, then the advance (R33, R81, R82). -/
def State.storeAtIndex (s : State p) (bs : List Byte) : StepOutcome p :=
  match s.mem.writeBlock p.font s.base bs with
  | .error f => .fault f
  | .ok m => .next (s.setMem m).advance

/-- `LD B, Vx` (R81): three digits at `I`, `I + 1`, `I + 2`, and nothing else. -/
def execLdB (x : RegIx) (s : State p) : StepOutcome p := s.storeAtIndex (bcdDigits (s.reg x))

/-- `LD [I], Vx` (R82): `V[0]` to `V[X]` at `I` upward. -/
def execLdMemVx (x : RegIx) (s : State p) : StepOutcome p := s.storeAtIndex (s.regsUpTo x)

/-- `LD Vx, [I]` (R83): `V[0]` to `V[X]` from `I` upward. -/
def execLdVxMem (x : RegIx) (s : State p) : StepOutcome p :=
  match s.mem.readBlock p.font s.base (x.val + 1) with
  | .error f => .fault f
  | .ok bs => .next (s.setRegs bs).advance

end Sys2Proof.Machine
end

