-- ==== Sys2Proof/Machine/KeysTimers.lean ====
section
/-! DEFINITION. Key and timer instructions (44_keys_timers.md). None writes `VF` as a flag or raises an error. -/

namespace Sys2Proof.Machine

variable {p : Params}

/-- `SKP Vx` (R72). -/
def execSkp (x : RegIx) (s : State p) : StepOutcome p := .next (s.skipIf (keyMatches s.latch (s.reg x)))

/-- `SKNP Vx` (R73): the complement of `SKP`. -/
def execSknp (x : RegIx) (s : State p) : StepOutcome p := .next (s.skipIf (!keyMatches s.latch (s.reg x)))

/-- `LD Vx, DT` (R74). -/
def execLdVxDt (x : RegIx) (s : State p) : StepOutcome p := .next (s.setReg x s.dt).advance

/-- `LD Vx, K` (R75): `keyWait <- 1`; no register is written, now or when the key arrives (D19). -/
def execLdVxK (_x : RegIx) (s : State p) : StepOutcome p := .next s.awaitKey.advance

/-- `LD DT, Vx` (R76). -/
def execLdDtVx (x : RegIx) (s : State p) : StepOutcome p := .next (s.setDt (s.reg x)).advance

/-- `LD ST, Vx` (R77). -/
def execLdStVx (x : RegIx) (s : State p) : StepOutcome p := .next (s.setSt (s.reg x)).advance

end Sys2Proof.Machine
end

