-- ==== Sys2Proof/Machine/Skips.lean ====
section
/-! DEFINITION. Conditional skips on registers (41_skips.md). The skips on keys are in Machine/KeysTimers.lean. -/

namespace Sys2Proof.Machine

variable {p : Params}

/-- `SE Vx, byte` (R55). -/
def execSeByte (x : RegIx) (nn : Byte) (s : State p) : StepOutcome p := .next (s.skipIf (s.reg x == nn))

/-- `SNE Vx, byte` (R56). -/
def execSneByte (x : RegIx) (nn : Byte) (s : State p) : StepOutcome p := .next (s.skipIf (s.reg x != nn))

/-- `SE Vx, Vy` (R57). -/
def execSeReg (x y : RegIx) (s : State p) : StepOutcome p := .next (s.skipIf (s.reg x == s.reg y))

/-- `SNE Vx, Vy` (R58). -/
def execSneReg (x y : RegIx) (s : State p) : StepOutcome p := .next (s.skipIf (s.reg x != s.reg y))

end Sys2Proof.Machine
end

