-- ==== Sys2Proof/Machine/Step.lean ====
section
/-! DEFINITION. The step procedure (60_exceptions.md R98) of this hardware: `stepBy` with the decoder of R45 and `exec`. -/

namespace Sys2Proof.Machine

/-- `Step(rnd)` (R98). -/
def stepWith (rnd : Byte) (s : State) : Host.Outcome State Fault Refusal :=
  stepBy (fun w => (decode w).toOption) exec rnd s

/-- One `Step`, its random byte the next free one (R61, D3; log 3). -/
def step (s : State) : Host.Outcome State Fault Refusal := stepWith (Config.rnd s.draws) s.countDraw

/-- `s` with the instruction word `w` of `nbits` bits (the bits above them 0) where the next `step` fetches it. -/
def State.withFetchWord (s : State) (nbits w : Nat) : State := s.placeWord (BitVec.ofNat 16 (w % 2 ^ nbits))

end Sys2Proof.Machine
end

