-- ==== Sys2Proof/Machine/Parametric.lean ====
section
/-! DEFINITION. The machine with its parameters (00_scope.md R4) as an argument `p`: the same meanings, dispatched at any `p`, under
the numerals of `p`. At `Config.params` it is `exec` and `stepWith` (log 27). -/

namespace Sys2Proof.Machine

variable {p : Params}

/-- What an instruction does on a machine with the parameters `p`. -/
def execUnder (i : Instr) (s : State p) : StepOutcome p :=
  match i with
  | .sys nnn => execSys nnn s
  | .cls => execCls s
  | .ret => execRet s
  | .jp nnn => execJp nnn s
  | .call nnn => execCall nnn s
  | .seByte x nn => execSeByte x nn s
  | .sneByte x nn => execSneByte x nn s
  | .seReg x y => execSeReg x y s
  | .ldByte x nn => execLdByte x nn s
  | .addByte x nn => execAddByte x nn s
  | .ldReg x y => execLdReg x y s
  | .orReg x y => execOrReg x y s
  | .andReg x y => execAndReg x y s
  | .xorReg x y => execXorReg x y s
  | .addReg x y => execAddReg x y s
  | .sub x y => execSub x y s
  | .shr x y => execShr x y s
  | .subn x y => execSubn x y s
  | .shl x y => execShl x y s
  | .sneReg x y => execSneReg x y s
  | .ldI nnn => execLdI nnn s
  | .jpV0 nnn => execJpV0 nnn s
  | .rnd x nn => execRnd x nn s
  | .drw x y n => execDrw x y n s
  | .skp x => execSkp x s
  | .sknp x => execSknp x s
  | .ldVxDt x => execLdVxDt x s
  | .ldVxK x => execLdVxK x s
  | .ldDtVx x => execLdDtVx x s
  | .ldStVx x => execLdStVx x s
  | .addI x => execAddI x s
  | .ldF x => execLdF x s
  | .ldB x => execLdB x s
  | .ldMemVx x => execLdMemVx x s
  | .ldVxMem x => execLdVxMem x s

/-- `Step(rnd)` (R98) on a machine with the parameters `p`. -/
def stepUnder (rnd : Byte) (s : State p) : StepOutcome p := stepBy (decodeUnder p.numerals) execUnder rnd s

end Sys2Proof.Machine
end

