-- ==== Sys2Proof/Machine/Events.lean ====
section
/-! DEFINITION. The host's events (00_scope.md R8): each one atomic transition of the whole state, with an outcome. -/

namespace Sys2Proof.Machine

variable {p : Params}

/-- The eight events of R8. -/
inductive Event where
  /-- `create()` (R110) -/
  | reset
  /-- `loadProgram(bytes)` (R112) -/
  | load (bytes : List Byte)
  /-- `step` with its random byte (R98) -/
  | step (rnd : Byte)
  /-- `tickTimers` (R100) -/
  | tick
  /-- `setKey(k)` (R101) -/
  | keyDown (k : Key)
  /-- `clearKey()` (R102) -/
  | keyUp
  /-- `isDrawReady` (R103) -/
  | frameQuery
  /-- `consumeFramebuffer` (R104) -/
  | frameConsume
  deriving DecidableEq, Repr

/-- The outcome of an event (R7, R87). -/
inductive EventOutcome where
  /-- `Ok` -/
  | ok
  /-- `Ok`, with the value of `drawReady` (R103) -/
  | drawReady (b : Bool)
  /-- `Ok`, with the bitmap (R104) -/
  | frame (fb : Framebuffer)
  /-- `UnsupportedOpcode(w, pc)`, recoverable (R88) -/
  | unsupportedOpcode (w : Word) (pc : Word)
  /-- a fatal error (R89, R90, R91) -/
  | fatal (f : Fault)
  /-- `RomTooLarge` (R92, R112) -/
  | romTooLarge
  /-- the model gives the instruction no meaning; no instruction of this model does so -/
  | refused (r : Refusal)
  deriving DecidableEq, Repr

/-- A timer after one `Tick`: one less, never below zero (R100). -/
def tickTimer (b : Byte) : Byte := if b = 0x00#8 then 0x00#8 else b - 1#8

/-- `Tick` (R100): both timers. -/
def State.tick (s : State p) : State p := { s with dt := tickTimer s.dt, st := tickTimer s.st }

/-- `KeyDown(k)` (R101). -/
def State.keyDown (s : State p) (k : Key) : State p := { s with latch := some k, keyWait := false }

/-- `KeyUp` (R102): `keyWait` stays (D17). -/
def State.keyUp (s : State p) : State p := { s with latch := none }

/-- The state change of `FrameConsume` (R104). -/
def State.frameConsumed (s : State p) : State p := { s with drawReady := false }

/-- `Reset` of a machine in any state (R110): all twelve elements at their reset values. The free bytes go on where they
were, so that a reset does not repeat them (log 3). -/
def State.resetFrom (s : State p) : State p := { State.resetUnder p with rnd := s.rnd, draws := s.draws }

/-- `Load(bytes)` for a program that fits (R112): the bytes at 0x200 upward and nothing else. -/
def State.loaded (s : State p) (bytes : List Byte) : State p :=
  s.setMem (s.mem.writeBytes p.font Config.entry.toNat bytes)

/-- What a `Step` reports that answered the state `t` (R7). -/
def Report.outcome : Report → EventOutcome
  | .ok => .ok
  | .unsupportedOpcode w pc => .unsupportedOpcode w pc

/-- A step's answer as a transition of the state `s` (R94): a fatal error leaves `s` as it is. -/
def eventOfStep (s : State p) : StepOutcome p → State p × EventOutcome
  | .next t => (t, t.report.outcome)
  | .fault f => (s, .fatal f)
  | .refused r => (s, .refused r)

/-- One event (R8), `stp rnd` being the machine's `Step(rnd)`: the state after it, and its outcome. -/
def applyEventBy (stp : Byte → State p → StepOutcome p) (e : Event) (s : State p) : State p × EventOutcome :=
  match e with
  | .reset => (s.resetFrom, .ok)
  | .load bytes => if bytes.length > Config.romMax then (s, .romTooLarge) else (s.loaded bytes, .ok)
  | .step rnd => eventOfStep s (stp rnd s)
  | .tick => (s.tick, .ok)
  | .keyDown k => (s.keyDown k, .ok)
  | .keyUp => (s.keyUp, .ok)
  | .frameQuery => (s, .drawReady s.drawReady)
  | .frameConsume => (s.frameConsumed, .frame s.fb)

/-- The state after a finite sequence of events, in the order the host issues them (R35, R105). -/
def runEventsBy (stp : Byte → State p → StepOutcome p) : List Event → State p → State p
  | [], s => s
  | e :: es, s => runEventsBy stp es (applyEventBy stp e s).1

/-- One event (R8) on a machine with the parameters `p`. -/
def applyEventUnder (e : Event) (s : State p) : State p × EventOutcome := applyEventBy stepUnder e s

/-- A finite sequence of events on a machine with the parameters `p`. -/
def runEventsUnder (es : List Event) (s : State p) : State p := runEventsBy stepUnder es s

/-- One event (R8) on this hardware. -/
def applyEvent (e : Event) (s : State) : State × EventOutcome := applyEventBy stepWith e s

/-- A finite sequence of events on this hardware. -/
def runEvents (es : List Event) (s : State) : State := runEventsBy stepWith es s

end Sys2Proof.Machine
end

