-- ==== Sys2Proof/Safety.lean ====
section
/-! DEFINITION. What counts as a good state, a safe step and a finished run, in the terms statements use. -/

namespace Sys2Proof.Machine

variable {p : Params}

/-- The invariant of every reachable state: memory in its canonical form (log 12), `pc` at most 0x10FE (R14), and every call
stack slot an address a `CALL` can be fetched from, at most 0xFFE (R51, R53). That `SP` stays within the stack (R17) is the
type of `State.sp`. -/
abbrev State.Inv (s : State p) : Prop :=
  s.canonical = true ∧ s.pc.toNat ≤ 0x10FE ∧ ∀ k : Fin p.stackDepth, s.stack[k].toNat ≤ 0xFFE

/-- `t` is `s` in all twelve elements of R10 (the model's own `rnd`, `draws` and `report` may differ). -/
abbrev State.SameMachine (s t : State p) : Prop :=
  t = { s with rnd := t.rnd, draws := t.draws, report := t.report }

/-- A word is unsupported (R46): it selects no row, or it selects `SYS`. -/
def Unsupported (w : Word) : Prop := (∃ e, decode w = .error e) ∨ ∃ nnn, decode w = .ok (.sys nnn)

/-- The word the next `Step` fetches, for a `pc` at most 0xFFE: high byte at the lower address (R30). -/
def State.wordAtPc (s : State p) : Word := s.byte s.pc.toNat ++ s.byte (s.pc.toNat + 1)

/-- Sprite row `r`, column `c` (bit 7 leftmost) of the sprite of `n` rows at `I` is set (R85). -/
def State.SpriteBit (s : State p) (n : Rows) (r c : Nat) : Prop :=
  r < n.val ∧ c < 8 ∧ (s.byte (s.base + r)).getLsbD (7 - c) = true

/-- Under `DRAW_EDGE = wrap`, `DRW Vx, Vy, n` toggles pixel `q`: column modulo 64, row modulo 32 (R85). -/
def State.DrawnWrap (s : State p) (x y : RegIx) (n : Rows) (q : Pixel) : Prop :=
  ∃ r c, s.SpriteBit n r c ∧ q.1.val = ((s.reg x).toNat + c) % 64 ∧ q.2.val = ((s.reg y).toNat + r) % 32

/-- Under `DRAW_EDGE = clip`, it toggles pixel `q`: nothing is reduced, a pixel off the screen is not drawn (R85). -/
def State.DrawnClip (s : State p) (x y : RegIx) (n : Rows) (q : Pixel) : Prop :=
  ∃ r c, s.SpriteBit n r c ∧ q.1.val = (s.reg x).toNat + c ∧ q.2.val = (s.reg y).toNat + r

/-- A finished state: the word at `pc` is `JP pc`, the definition the spec offers and leaves a model free to change (R118, D30).
DESIGN CHOICE, log 28: the model adds that `keyWait` is 0, which the spec's definition does not ask. -/
def State.Terminal (s : State) : Prop :=
  s.keyWait = false ∧ ∃ w nnn, s.fetch = .ok w ∧ decode w = .ok (.jp nnn) ∧ nnn.toNat = s.pc.toNat

/-- The state freshly booted with a program (R119): `Reset`, then `Load`. -/
def bootedWith (bytes : List Byte) (s : State) : State := runEvents [.reset, .load bytes] s

end Sys2Proof.Machine
end

