-- ==== Sys2Proof/Certificates/Slice0/Obligations.lean ====
section
/-! DEFINITION. The statements for the provers. A frame is written `t = { s with f := t.f, … }`: `t` agrees with `s` in every
field but those named. "Derived" clauses that rest on a decision of the spec name it (D<n>, 92_eei_decisions.md). -/

open Sys2Proof Sys2Proof.Machine

/-! ## Encoding -/

/-- R40 to R45: the decoder reads back every well-formed instruction, every operand at every value. The numerals are the
spec's parameter (D1; log 1), the strictness of decode is D22. -/
def Obligations.DecodeEncodeRoundTrip : Prop := ∀ i : Instr, i.wf = true → decode (encode i) = .ok i

/-- R41, R45: what the decoder answers is well formed and encodes to the very word it was read from. Numerals: D1, log 1. -/
def Obligations.EncodeDecodeRoundTrip : Prop := ∀ (w : Word) (i : Instr), decode w = .ok i → i.wf = true ∧ encode i = w

/-- R44, R45: the decoder answers an instruction only for a word that its row of the table selects, and never `SYS` for a
word that a row with a larger mask selects. Numerals: D1, log 1. -/
def Obligations.DecodedWordSelectsItsRow : Prop :=
  ∀ (w : Word) (i : Instr), decode w = .ok i →
    i.row.selects w = true ∧ (∀ nnn, i = .sys nnn → ∀ r ∈ executingRows, r.selects w = false)

/-- R45, R46: the unsupported words are exactly those that no executing row of the table selects. Numerals: D1, log 1; SYS:
D2; strict decode: D22. -/
def Obligations.UnsupportedIffNoRowSelects : Prop :=
  ∀ w : Word, Unsupported w ↔ ∀ r ∈ executingRows, r.selects w = false

/-- R42, R44: words written out from the table's patterns decode to their instructions. Numerals: D1, log 1. -/
def Obligations.TableWordsDecode : Prop :=
  decode 0x00E0#16 = .ok .cls ∧ decode 0x00EE#16 = .ok .ret ∧ decode 0x1ABC#16 = .ok (.jp 0xABC#12) ∧
    decode 0x3A42#16 = .ok (.seByte 10 0x42#8) ∧ decode 0x7105#16 = .ok (.addByte 1 0x05#8) ∧
    decode 0x8126#16 = .ok (.shr 1 2) ∧ decode 0x9AB0#16 = .ok (.sneReg 10 11) ∧
    decode 0xD125#16 = .ok (.drw 1 2 5) ∧ decode 0xE39E#16 = .ok (.skp 3) ∧ decode 0xF265#16 = .ok (.ldVxMem 2)

/-! ## The step procedure and its errors -/

/-- R98: a `Step` that is not held and whose `pc` can be fetched from runs the instruction its word decodes to, on the state
with the random byte of the `Step` at hand and the report `Ok`; `step` draws that byte (log 3). -/
def Obligations.StepRunsDecodedInstruction : Prop :=
  ∀ (s : State) (i : Instr), s.keyWait = false → s.pc.toNat ≤ 0xFFE → decode s.wordAtPc = .ok i →
    (∀ rnd, stepWith rnd s = exec i { s with rnd := rnd, report := .ok }) ∧
      step s = exec i { s with rnd := Config.rnd s.draws, draws := s.draws + 1, report := .ok }

/-- R88: a `Step` on an unsupported word advances `pc` by 2, reports the word and the `pc` it was fetched from (the payload: D26,
log 23), and changes nothing else; the outcome of the event is `UnsupportedOpcode`. That the report is a field of the next state
is the model's form (log 4), `rnd` the byte of the `Step` (log 3); the words: D1, log 1, D22, and those of `SYS` D2, log 2. -/
def Obligations.UnsupportedWordAdvancesPcOnly : Prop :=
  ∀ (rnd : Byte) (s : State), s.keyWait = false → s.pc.toNat ≤ 0xFFE → Unsupported s.wordAtPc →
    ∃ t, stepWith rnd s = .next t ∧ t.pc.toNat = (s.pc.toNat + 2) % 65536 ∧
      t = { s with pc := t.pc, rnd := rnd, report := .unsupportedOpcode s.wordAtPc s.pc } ∧
      applyEvent (.step rnd) s = (t, .unsupportedOpcode s.wordAtPc s.pc)

/-- R99 (the no-op is the spec's decision D18): while `keyWait` is 1 a `Step` answers `Ok` and changes no element of R10. -/
def Obligations.HeldStepChangesNothing : Prop :=
  ∀ (rnd : Byte) (s : State), s.keyWait = true →
    (∃ t, stepWith rnd s = .next t ∧ t = { s with report := .ok } ∧ applyEvent (.step rnd) s = (t, .ok)) ∧
      ∃ t, step s = .next t ∧ s.SameMachine t

/-- R30 (the check is the spec's decision D13): a `Step` that is not held and whose `pc` is above 0xFFE reports the lowest
address above 0xFFF of the fetch. -/
def Obligations.FetchBeyondMemoryFaults : Prop :=
  ∀ (rnd : Byte) (s : State), s.keyWait = false → 0xFFE < s.pc.toNat →
    stepWith rnd s = .fault (.addressError (if 0xFFF < s.pc.toNat then s.pc.toNat else s.pc.toNat + 1))

/-- R87, R93: no instruction is refused; `CALL` alone overflows, on a full stack, `RET` alone underflows, on an empty one, and
the four memory instructions alone report an address, the lowest above 0xFFF, and only when they would access one: `I + 2`
(`LD B`), `I + X` (`LD [I]`, `LD Vx, [I]`), `I + N - 1` with `N` not 0 (`DRW`) above 0xFFF (R91; AddressError: D13; depth of the
stack: D4; payloads: D26). -/
def Obligations.ErrorsArriveOnlyAsListed : Prop :=
  ∀ (i : Instr) (s : State), (∀ r, exec i s ≠ .refused r) ∧ ∀ f, exec i s = .fault f →
    (i = .ret ∧ s.sp.val = 0 ∧ f = .stackUnderflow s.pc) ∨
      (∃ nnn, i = .call nnn ∧ s.sp.val = Config.stackDepth ∧ f = .stackOverflow s.pc) ∨
      (((∃ x, i = .ldB x ∧ 0xFFF < s.base + 2) ∨
          (∃ x, (i = .ldMemVx x ∨ i = .ldVxMem x) ∧ 0xFFF < s.base + x.val) ∨
          ∃ x y n, i = .drw x y n ∧ n.val ≠ 0 ∧ 0xFFF < s.base + n.val - 1) ∧
        f = .addressError (max s.base 0x1000))

/-- R94 (no change at all: D15): a fatal error leaves the whole state as it was, and is the outcome of its `Step`. -/
def Obligations.FatalErrorChangesNothing : Prop :=
  ∀ (rnd : Byte) (s : State) (f : Fault), stepWith rnd s = .fault f → applyEvent (.step rnd) s = (s, .fatal f)

/-- R95 (an inference the spec marks as derived; D15): after a fatal error, whatever events follow, but for `Reset` and
`Load`, every further `Step` reports the same error. -/
def Obligations.FatalErrorPersists : Prop :=
  ∀ (rnd : Byte) (s : State) (f : Fault), stepWith rnd s = .fault f →
    ∀ es : List Event, (∀ e ∈ es, e ≠ .reset ∧ ∀ bytes, e ≠ .load bytes) →
      ∀ rnd', stepWith rnd' (runEvents es s) = .fault f

/-! ## Control transfer -/

/-- R50 (the instruction is general knowledge, D2; log 2): `SYS` completes as the unsupported-opcode condition. -/
def Obligations.SysReportsAndAdvances : Prop :=
  ∀ (nnn : Addr12) (s : State), ∃ t, exec (.sys nnn) s = .next t ∧ t.pc.toNat = (s.pc.toNat + 2) % 65536 ∧
    t = { s with pc := t.pc, report := .unsupportedOpcode (nnn.setWidth 16) s.pc }

/-- R51: on a stack that is not empty `RET` goes two bytes past the address in the newest slot, which keeps its value (D5);
on an empty stack it reports `StackUnderflow` (no state change: D15). -/
def Obligations.RetPopsPastTheCall : Prop :=
  ∀ s : State,
    (∀ k : Fin Config.stackDepth, s.sp.val = k.val + 1 →
      ∃ t, exec .ret s = .next t ∧ t.pc.toNat = (s.stack[k].toNat + 2) % 65536 ∧ t.sp.val = k.val ∧
        t = { s with pc := t.pc, sp := t.sp }) ∧
      (s.sp.val = 0 → exec .ret s = .fault (.stackUnderflow s.pc))

/-- R53: on a stack that is not full `CALL` stores its own address in the next free slot, counts it and jumps; on a full one
it reports `StackOverflow` (no state change: D15; the depth: D4). -/
def Obligations.CallPushesItsOwnAddress : Prop :=
  ∀ (nnn : Addr12) (s : State),
    (∀ k : Fin Config.stackDepth, s.sp.val = k.val →
      ∃ t, exec (.call nnn) s = .next t ∧ t.stack[k] = s.pc ∧
        (∀ j : Fin Config.stackDepth, j ≠ k → t.stack[j] = s.stack[j]) ∧ t.sp.val = k.val + 1 ∧
        t.pc.toNat = nnn.toNat ∧ t = { s with stack := t.stack, sp := t.sp, pc := t.pc }) ∧
      (s.sp.val = Config.stackDepth → exec (.call nnn) s = .fault (.stackOverflow s.pc))

/-- 40_control_flow.md, "Call and return together" (the source's testable property): a `CALL` followed at once by `RET` ends
after the call with the stack depth of before; nothing else but the freed slot differs. -/
def Obligations.CallThenRetRoundTrip : Prop :=
  ∀ (nnn : Addr12) (s : State), s.sp.val < Config.stackDepth →
    ∃ t u, exec (.call nnn) s = .next t ∧ exec .ret t = .next u ∧ u.pc = s.pc + 2#16 ∧ u.sp = s.sp ∧
      u = { s with pc := u.pc, stack := u.stack }

/-- R52, R54 (`JP V0` is general knowledge, D2; log 2): the jumps write `pc` and nothing else; the sum is not cut to 12 bits. -/
def Obligations.JumpsWritePcOnly : Prop :=
  ∀ (nnn : Addr12) (s : State),
    (∃ t, exec (.jp nnn) s = .next t ∧ t.pc.toNat = nnn.toNat ∧ t = { s with pc := t.pc }) ∧
      ∃ t, exec (.jpV0 nnn) s = .next t ∧ t.pc.toNat = nnn.toNat + (s.reg 0).toNat ∧ t = { s with pc := t.pc }

/-! ## Skips -/

/-- R55, R56: the skips on a byte advance by 4 if their condition holds, else by 2, and write `pc` alone. -/
def Obligations.SkipsOnByte : Prop :=
  ∀ (x : RegIx) (nn : Byte) (s : State),
    (∃ t, exec (.seByte x nn) s = .next t ∧ t = { s with pc := t.pc } ∧
      t.pc.toNat = (s.pc.toNat + if s.reg x = nn then 4 else 2) % 65536) ∧
      ∃ t, exec (.sneByte x nn) s = .next t ∧ t = { s with pc := t.pc } ∧
        t.pc.toNat = (s.pc.toNat + if s.reg x ≠ nn then 4 else 2) % 65536

/-- R57, R58: the skips on two registers; with `X = Y`, `SE` always skips and `SNE` never does. -/
def Obligations.SkipsOnRegisters : Prop :=
  ∀ (x y : RegIx) (s : State),
    (∃ t, exec (.seReg x y) s = .next t ∧ t = { s with pc := t.pc } ∧
      t.pc.toNat = (s.pc.toNat + if s.reg x = s.reg y then 4 else 2) % 65536 ∧
      (x = y → t.pc.toNat = (s.pc.toNat + 4) % 65536)) ∧
      ∃ t, exec (.sneReg x y) s = .next t ∧ t = { s with pc := t.pc } ∧
        t.pc.toNat = (s.pc.toNat + if s.reg x ≠ s.reg y then 4 else 2) % 65536 ∧
        (x = y → t.pc.toNat = (s.pc.toNat + 2) % 65536)

/-! ## Immediate operations -/

/-- R59, R60: the byte, or the sum modulo 256, goes to `V[X]`; no other register and no flag is written. -/
def Obligations.LoadAndAddByte : Prop :=
  ∀ (x : RegIx) (nn : Byte) (s : State),
    (∃ t, exec (.ldByte x nn) s = .next t ∧ t.reg x = nn ∧ (∀ r, r ≠ x → t.reg r = s.reg r) ∧
      t.pc.toNat = (s.pc.toNat + 2) % 65536 ∧ t = { s with v := t.v, pc := t.pc }) ∧
      ∃ t, exec (.addByte x nn) s = .next t ∧ (t.reg x).toNat = ((s.reg x).toNat + nn.toNat) % 256 ∧
        (∀ r, r ≠ x → t.reg r = s.reg r) ∧ t.pc.toNat = (s.pc.toNat + 2) % 65536 ∧
        t = { s with v := t.v, pc := t.pc }

/-- R61 (general knowledge, D2, D3; log 2, log 3): `RND` writes the random byte of its `Step` under the mask, for every value
of that byte, so a bit the mask has clear is clear. -/
def Obligations.RndMasksTheFreeByte : Prop :=
  ∀ (x : RegIx) (nn : Byte) (s : State),
    ∃ t, exec (.rnd x nn) s = .next t ∧
      (∀ b, (t.reg x).getLsbD b = (s.rnd.getLsbD b && nn.getLsbD b)) ∧ (∀ r, r ≠ x → t.reg r = s.reg r) ∧
      t.pc.toNat = (s.pc.toNat + 2) % 65536 ∧ t = { s with v := t.v, pc := t.pc }

/-- R98: every instruction but `RND` ignores the random byte (log 3): run with another byte it does the same. -/
def Obligations.OnlyRndReadsTheRandomByte : Prop :=
  ∀ (i : Instr) (s : State) (rnd : Byte), (∀ x nn, i ≠ .rnd x nn) →
    (∀ t, exec i s = .next t → exec i { s with rnd := rnd } = .next { t with rnd := rnd }) ∧
      ∀ f, exec i s = .fault f → exec i { s with rnd := rnd } = .fault f

/-! ## Register-register operations -/

/-- R63 to R66 (no flag is written: D9): copy, OR, AND, XOR write `V[X]` alone, bit by bit. -/
def Obligations.MoveAndLogicWriteOneRegister : Prop :=
  ∀ (x y : RegIx) (s : State),
    (∃ t, exec (.ldReg x y) s = .next t ∧ t.reg x = s.reg y ∧ (∀ r, r ≠ x → t.reg r = s.reg r) ∧
      t.pc.toNat = (s.pc.toNat + 2) % 65536 ∧ t = { s with v := t.v, pc := t.pc }) ∧
    (∃ t, exec (.orReg x y) s = .next t ∧
      (∀ b, (t.reg x).getLsbD b = ((s.reg x).getLsbD b || (s.reg y).getLsbD b)) ∧
      (∀ r, r ≠ x → t.reg r = s.reg r) ∧
      t.pc.toNat = (s.pc.toNat + 2) % 65536 ∧ t = { s with v := t.v, pc := t.pc }) ∧
    (∃ t, exec (.andReg x y) s = .next t ∧
      (∀ b, (t.reg x).getLsbD b = ((s.reg x).getLsbD b && (s.reg y).getLsbD b)) ∧
      (∀ r, r ≠ x → t.reg r = s.reg r) ∧
      t.pc.toNat = (s.pc.toNat + 2) % 65536 ∧ t = { s with v := t.v, pc := t.pc }) ∧
    ∃ t, exec (.xorReg x y) s = .next t ∧
      (∀ b, (t.reg x).getLsbD b = ((s.reg x).getLsbD b ^^ (s.reg y).getLsbD b)) ∧
      (∀ r, r ≠ x → t.reg r = s.reg r) ∧
      t.pc.toNat = (s.pc.toNat + 2) % 65536 ∧ t = { s with v := t.v, pc := t.pc }

/-- R67 (order of the writes, `X` = 15: D8): `VF` is the carry of the old operands for every `X` and `Y`; `V[X]` is the sum
modulo 256 unless `X` is 15. -/
def Obligations.AddSetsSumAndCarry : Prop :=
  ∀ (x y : RegIx) (s : State), ∃ t, exec (.addReg x y) s = .next t ∧
    t.reg 15 = (if (s.reg x).toNat + (s.reg y).toNat > 255 then 0x01#8 else 0x00#8) ∧
    (x ≠ 15 → (t.reg x).toNat = ((s.reg x).toNat + (s.reg y).toNat) % 256) ∧
    (∀ r, r ≠ x → r ≠ 15 → t.reg r = s.reg r) ∧
    t.pc.toNat = (s.pc.toNat + 2) % 65536 ∧ t = { s with v := t.v, pc := t.pc }

/-- R68, R70 (order of the writes, `X` = 15: D8): the two subtractions, modulo 256, and the no-borrow flag. -/
def Obligations.SubtractionsSetDifferenceAndNoBorrow : Prop :=
  ∀ (x y : RegIx) (s : State),
    (∃ t, exec (.sub x y) s = .next t ∧
      t.reg 15 = (if (s.reg y).toNat ≤ (s.reg x).toNat then 0x01#8 else 0x00#8) ∧
      (x ≠ 15 → (t.reg x).toNat = ((s.reg x).toNat + 256 - (s.reg y).toNat) % 256) ∧
      (∀ r, r ≠ x → r ≠ 15 → t.reg r = s.reg r) ∧
      t.pc.toNat = (s.pc.toNat + 2) % 65536 ∧ t = { s with v := t.v, pc := t.pc }) ∧
    ∃ t, exec (.subn x y) s = .next t ∧
      t.reg 15 = (if (s.reg x).toNat ≤ (s.reg y).toNat then 0x01#8 else 0x00#8) ∧
      (x ≠ 15 → (t.reg x).toNat = ((s.reg y).toNat + 256 - (s.reg x).toNat) % 256) ∧
      (∀ r, r ≠ x → r ≠ 15 → t.reg r = s.reg r) ∧
      t.pc.toNat = (s.pc.toNat + 2) % 65536 ∧ t = { s with v := t.v, pc := t.pc }

/-- R69 (in place, `Y` ignored: D7; `X` = 15: D8): the shift right and the bit shifted out. -/
def Obligations.ShrHalvesAndKeepsLowBit : Prop :=
  ∀ (x y : RegIx) (s : State), ∃ t, exec (.shr x y) s = .next t ∧
    (t.reg 15).toNat = (s.reg x).toNat % 2 ∧
    (x ≠ 15 → (t.reg x).toNat = (s.reg x).toNat / 2) ∧
    (∀ r, r ≠ x → r ≠ 15 → t.reg r = s.reg r) ∧
    t.pc.toNat = (s.pc.toNat + 2) % 65536 ∧ t = { s with v := t.v, pc := t.pc }

/-- R71 (in place, `Y` ignored: D7; `X` = 15: D8): the shift left; the flag is "value > 7", the spec's choice of
`SHL_FLAG_RULE` (D6; log 6), and bit 7 under the other value of the parameter. -/
def Obligations.ShlDoublesAndFlagsAboveSeven : Prop :=
  ∀ (x y : RegIx) (s : State),
    (∃ t, exec (.shl x y) s = .next t ∧
      t.reg 15 = (if (s.reg x).toNat > 7 then 0x01#8 else 0x00#8) ∧
      (x ≠ 15 → (t.reg x).toNat = (s.reg x).toNat * 2 % 256) ∧
      (∀ r, r ≠ x → r ≠ 15 → t.reg r = s.reg r) ∧
      t.pc.toNat = (s.pc.toNat + 2) % 65536 ∧ t = { s with v := t.v, pc := t.pc }) ∧
    ∃ t, execShlUnder .bit7 x s = .next t ∧
      (t.reg 15).toNat = (s.reg x).toNat / 128 ∧
      (x ≠ 15 → (t.reg x).toNat = (s.reg x).toNat * 2 % 256) ∧
      (∀ r, r ≠ x → r ≠ 15 → t.reg r = s.reg r) ∧
      t.pc.toNat = (s.pc.toNat + 2) % 65536 ∧ t = { s with v := t.v, pc := t.pc }

/-! ## Keys and timers -/

/-- R72, R73 (all 8 bits compared, none equals nothing: D16): `SKP` skips iff a key is latched and it is `V[X]`, `SKNP` in
every other case. -/
def Obligations.KeySkipsCompareTheLatch : Prop :=
  ∀ (x : RegIx) (s : State),
    (∃ t, exec (.skp x) s = .next t ∧ t = { s with pc := t.pc } ∧
      ((∃ k, s.latch = some k ∧ k.val = (s.reg x).toNat) → t.pc.toNat = (s.pc.toNat + 4) % 65536) ∧
      ((∀ k, s.latch = some k → k.val ≠ (s.reg x).toNat) → t.pc.toNat = (s.pc.toNat + 2) % 65536)) ∧
    ∃ t, exec (.sknp x) s = .next t ∧ t = { s with pc := t.pc } ∧
      ((∃ k, s.latch = some k ∧ k.val = (s.reg x).toNat) → t.pc.toNat = (s.pc.toNat + 2) % 65536) ∧
      ((∀ k, s.latch = some k → k.val ≠ (s.reg x).toNat) → t.pc.toNat = (s.pc.toNat + 4) % 65536)

/-- R74, R76, R77: the timer copies, in both directions, and nothing else. -/
def Obligations.TimerCopies : Prop :=
  ∀ (x : RegIx) (s : State),
    (∃ t, exec (.ldVxDt x) s = .next t ∧ t.reg x = s.dt ∧ (∀ r, r ≠ x → t.reg r = s.reg r) ∧
      t.pc.toNat = (s.pc.toNat + 2) % 65536 ∧ t = { s with v := t.v, pc := t.pc }) ∧
    (∃ t, exec (.ldDtVx x) s = .next t ∧ t.dt = s.reg x ∧
      t.pc.toNat = (s.pc.toNat + 2) % 65536 ∧ t = { s with dt := t.dt, pc := t.pc }) ∧
    ∃ t, exec (.ldStVx x) s = .next t ∧ t.st = s.reg x ∧
      t.pc.toNat = (s.pc.toNat + 2) % 65536 ∧ t = { s with st := t.st, pc := t.pc }

/-- R75 (no register receives the key: D19): `LD Vx, K` sets `keyWait` and advances, whatever the latch holds. -/
def Obligations.KeyWaitSetsTheModeOnly : Prop :=
  ∀ (x : RegIx) (s : State), ∃ t, exec (.ldVxK x) s = .next t ∧ t.mode = .awaitingKey ∧
    t.pc.toNat = (s.pc.toNat + 2) % 65536 ∧ t = { s with keyWait := true, pc := t.pc }

/-! ## Index register and memory -/

/-- R78 to R80 (`LD I`: general knowledge, D2, log 2; no flag: D21; no mask on the digit: D20): the writers of `I`. -/
def Obligations.IndexRegisterWriters : Prop :=
  ∀ s : State,
    (∀ nnn : Addr12, ∃ t, exec (.ldI nnn) s = .next t ∧ t.i.toNat = nnn.toNat ∧
      t.pc.toNat = (s.pc.toNat + 2) % 65536 ∧ t = { s with i := t.i, pc := t.pc }) ∧
    ∀ x : RegIx,
      (∃ t, exec (.addI x) s = .next t ∧ t.i.toNat = (s.i.toNat + (s.reg x).toNat) % 65536 ∧
        t.pc.toNat = (s.pc.toNat + 2) % 65536 ∧ t = { s with i := t.i, pc := t.pc }) ∧
      ∃ t, exec (.ldF x) s = .next t ∧ t.i.toNat = (s.reg x).toNat * 5 ∧
        t.pc.toNat = (s.pc.toNat + 2) % 65536 ∧ t = { s with i := t.i, pc := t.pc }

/-- R81 (AddressError: D13; `I` kept: D21): with `I + 2` in memory `LD B` stores the three decimal digits of `V[X]` at `I`,
`I + 1`, `I + 2` and changes no other byte; else it reports the lowest address above 0xFFF. Bytes are read in memories in
their canonical form (log 12). -/
def Obligations.BcdStoresThreeDigits : Prop :=
  ∀ (x : RegIx) (s : State),
    (s.base + 2 ≤ 0xFFF → ∃ t, exec (.ldB x) s = .next t ∧
      (s.canonical = true →
        (t.byte s.base).toNat = (s.reg x).toNat / 100 ∧
        (t.byte (s.base + 1)).toNat = (s.reg x).toNat / 10 % 10 ∧
        (t.byte (s.base + 2)).toNat = (s.reg x).toNat % 10 ∧
        ∀ a, a < s.base ∨ s.base + 2 < a → t.byte a = s.byte a) ∧
      t.pc.toNat = (s.pc.toNat + 2) % 65536 ∧ t = { s with mem := t.mem, pc := t.pc }) ∧
    (0xFFF < s.base + 2 → exec (.ldB x) s = .fault (.addressError (max s.base 0x1000)))

/-- R82 (AddressError: D13; `I` kept: D21): with `I + X` in memory the dump stores `V[r]` at `I + r` for every `r` up to `X`
and changes no other byte; else it reports the lowest address above 0xFFF. Canonical memories: log 12. -/
def Obligations.DumpStoresRegistersUpToX : Prop :=
  ∀ (x : RegIx) (s : State),
    (s.base + x.val ≤ 0xFFF → ∃ t, exec (.ldMemVx x) s = .next t ∧
      (s.canonical = true →
        (∀ r, r.val ≤ x.val → t.byte (s.base + r.val) = s.reg r) ∧
        ∀ a, a < s.base ∨ s.base + x.val < a → t.byte a = s.byte a) ∧
      t.pc.toNat = (s.pc.toNat + 2) % 65536 ∧ t = { s with mem := t.mem, pc := t.pc }) ∧
    (0xFFF < s.base + x.val → exec (.ldMemVx x) s = .fault (.addressError (max s.base 0x1000)))

/-- R83 (AddressError: D13; `I` kept: D21): with `I + X` in memory the load reads `I + r` into `V[r]` for every `r` up to `X`,
keeps the other registers and all of memory; else it reports the lowest address above 0xFFF. -/
def Obligations.LoadReadsRegistersUpToX : Prop :=
  ∀ (x : RegIx) (s : State),
    (s.base + x.val ≤ 0xFFF → ∃ t, exec (.ldVxMem x) s = .next t ∧
      (∀ r, r.val ≤ x.val → t.reg r = s.byte (s.base + r.val)) ∧ (∀ r, x.val < r.val → t.reg r = s.reg r) ∧
      t.pc.toNat = (s.pc.toNat + 2) % 65536 ∧ t = { s with v := t.v, pc := t.pc }) ∧
    (0xFFF < s.base + x.val → exec (.ldVxMem x) s = .fault (.addressError (max s.base 0x1000)))

/-- R83 (the source's testable property; `I` kept: D21): registers 0 to `X` dumped, then, whatever the registers became,
loaded back from the same memory and `I`, hold their old values; the others are those of before the load. -/
def Obligations.DumpThenLoadRestores : Prop :=
  ∀ (x : RegIx) (s : State), s.canonical = true → s.base + x.val ≤ 0xFFF →
    ∃ t, exec (.ldMemVx x) s = .next t ∧
      ∀ u : State, u.mem = t.mem → u.i = t.i →
        ∃ w, exec (.ldVxMem x) u = .next w ∧ (∀ r, r.val ≤ x.val → w.reg r = s.reg r) ∧ ∀ r, x.val < r.val → w.reg r = u.reg r

/-- R37, R31 (derived by the spec): bytes a dump stored are the instruction word of the very next fetch from there. -/
def Obligations.StoredBytesAreFetched : Prop :=
  ∀ (x r r' : RegIx) (s : State), s.canonical = true → s.base + x.val ≤ 0xFFF → r'.val = r.val + 1 → r'.val ≤ x.val →
    ∃ t, exec (.ldMemVx x) s = .next t ∧
      ∀ u : State, u.mem = t.mem → u.pc.toNat = s.base + r.val → u.fetch = .ok (s.reg r ++ s.reg r')

/-! ## Framebuffer -/

/-- R84 (`drawReady` always set: D12): `CLS` blanks every cell, sets `drawReady`, and leaves `VF` and the rest. -/
def Obligations.ClsBlanksTheFrame : Prop :=
  ∀ s : State, ∃ t, exec .cls s = .next t ∧ (∀ k, t.fb.cell k = false) ∧ t.drawReady = true ∧
    t.pc.toNat = (s.pc.toNat + 2) % 65536 ∧ t = { s with fb := t.fb, drawReady := t.drawReady, pc := t.pc }

/-- R85, R86 (a), (b) (edge policy wrap: D10, log 7; bit order: D11, log 7; `drawReady` always set: D12): with its sprite in
memory, or no rows, `DRW` toggles exactly the pixels of the set bits, each once; `VF` is 1 iff one of them was lit; the
coordinates are those of the old registers, `X` or `Y` = 15 included. -/
def Obligations.DrwTogglesTheSpriteOnce : Prop :=
  ∀ (x y : RegIx) (n : Rows) (s : State), n.val = 0 ∨ s.base + n.val ≤ 0x1000 →
    ∃ t, exec (.drw x y n) s = .next t ∧
      (∀ p, t.fb.lit p = true ↔ ¬(s.fb.lit p = true ↔ s.DrawnWrap x y n p)) ∧
      ((∃ p, s.DrawnWrap x y n p ∧ s.fb.lit p = true) → t.reg 15 = 0x01#8) ∧
      ((∀ p, s.DrawnWrap x y n p → s.fb.lit p = false) → t.reg 15 = 0x00#8) ∧
      (∀ r, r ≠ 15 → t.reg r = s.reg r) ∧ t.drawReady = true ∧ t.pc.toNat = (s.pc.toNat + 2) % 65536 ∧
      t = { s with v := t.v, fb := t.fb, drawReady := t.drawReady, pc := t.pc }

/-- R85 under the parameter's other value `DRAW_EDGE = clip` (D10; log 7): a pixel off the screen is neither drawn nor
counted, and the origin is not reduced. -/
def Obligations.DrwUnderClipSkipsOffScreen : Prop :=
  ∀ (x y : RegIx) (n : Rows) (s : State), n.val = 0 ∨ s.base + n.val ≤ 0x1000 →
    ∃ t, execDrwUnder .clip x y n s = .next t ∧
      (∀ p, t.fb.lit p = true ↔ ¬(s.fb.lit p = true ↔ s.DrawnClip x y n p)) ∧
      ((∃ p, s.DrawnClip x y n p ∧ s.fb.lit p = true) → t.reg 15 = 0x01#8) ∧
      ((∀ p, s.DrawnClip x y n p → s.fb.lit p = false) → t.reg 15 = 0x00#8) ∧
      (63 < (s.reg x).toNat ∨ 31 < (s.reg y).toNat → t.fb = s.fb) ∧
      (∀ r, r ≠ 15 → t.reg r = s.reg r) ∧ t.drawReady = true ∧ t.pc.toNat = (s.pc.toNat + 2) % 65536 ∧
      t = { s with v := t.v, fb := t.fb, drawReady := t.drawReady, pc := t.pc }

/-- R85, R91 (AddressError: D13): a sprite that would be read beyond memory is an error naming the lowest such address. -/
def Obligations.DrwBeyondMemoryFaults : Prop :=
  ∀ (x y : RegIx) (n : Rows) (s : State), n.val ≠ 0 → 0xFFF < s.base + n.val - 1 →
    exec (.drw x y n) s = .fault (.addressError (max s.base 0x1000))

/-- R86 (d) (derived by the spec): a second identical `DRW`, its coordinates unchanged by the first, restores the
framebuffer; it reports a collision iff some drawn pixel was unlit before the first. -/
def Obligations.DrwTwiceRestoresTheFrame : Prop :=
  ∀ (x y : RegIx) (n : Rows) (s : State), n.val = 0 ∨ s.base + n.val ≤ 0x1000 →
    ∃ t, exec (.drw x y n) s = .next t ∧ (t.reg x = s.reg x → t.reg y = s.reg y →
      ∃ u, exec (.drw x y n) t = .next u ∧ u.fb = s.fb ∧
        (u.reg 15 = 0x01#8 ↔ ∃ p, s.DrawnWrap x y n p ∧ s.fb.lit p = false))

/-! ## Whole-machine rules -/

/-- R25, R20, R23: only `LD B` and `LD [I], Vx` change memory; only `CLS` and `DRW` change the framebuffer, and they set
`drawReady` (D12), which no instruction clears. -/
def Obligations.WritersOfMemoryAndFrame : Prop :=
  ∀ (i : Instr) (s t : State), exec i s = .next t →
    (t.mem ≠ s.mem → (∃ x, i = .ldB x) ∨ ∃ x, i = .ldMemVx x) ∧
      (t.fb ≠ s.fb → t.drawReady = true ∧ (i = .cls ∨ ∃ x y n, i = .drw x y n)) ∧
      (t.drawReady ≠ s.drawReady → t.drawReady = true)

/-- R13, R16 to R19, R21, R22: no instruction writes the latch or clears `keyWait`; each other element has only the writers
its rule lists (`RET` keeps the slots: D5). -/
def Obligations.WritersOfEachElement : Prop :=
  ∀ (i : Instr) (s t : State), exec i s = .next t →
    t.latch = s.latch ∧
      (t.keyWait ≠ s.keyWait → t.keyWait = true ∧ ∃ x, i = .ldVxK x) ∧
      (t.dt ≠ s.dt → ∃ x, i = .ldDtVx x) ∧ (t.st ≠ s.st → ∃ x, i = .ldStVx x) ∧
      (t.i ≠ s.i → (∃ nnn, i = .ldI nnn) ∨ (∃ x, i = .addI x) ∨ ∃ x, i = .ldF x) ∧
      (t.stack ≠ s.stack → ∃ nnn, i = .call nnn) ∧
      (t.sp ≠ s.sp → (t.sp.val = s.sp.val + 1 ∧ ∃ nnn, i = .call nnn) ∨ (t.sp.val + 1 = s.sp.val ∧ i = .ret))

/-- R12 (order: D8; four without a flag: D9): `VF` changes only by one of the six flag instructions, or by an instruction
whose destination register is 15. -/
def Obligations.WritersOfTheFlagRegister : Prop :=
  ∀ (i : Instr) (s t : State), exec i s = .next t → t.reg 15 ≠ s.reg 15 →
    (∃ x y, i = .addReg x y ∨ i = .sub x y ∨ i = .subn x y ∨ i = .shr x y ∨ i = .shl x y) ∨
      (∃ x y n, i = .drw x y n) ∨
      (∃ nn, i = .ldByte 15 nn ∨ i = .addByte 15 nn ∨ i = .rnd 15 nn) ∨
      (∃ y, i = .ldReg 15 y ∨ i = .orReg 15 y ∨ i = .andReg 15 y ∨ i = .xorReg 15 y) ∨
      i = .ldVxDt 15 ∨ i = .ldVxMem 15

/-- R14: an instruction that completes advances `pc` by 2, or by 4 if it is one of the six skips, or is one of the four
control transfers. -/
def Obligations.PcAdvancesByTwoOrFour : Prop :=
  ∀ (i : Instr) (s t : State), exec i s = .next t →
    t.pc = s.pc + 2#16 ∨
      (t.pc = s.pc + 4#16 ∧ ∃ x y nn, i = .seByte x nn ∨ i = .sneByte x nn ∨ i = .seReg x y ∨ i = .sneReg x y ∨
        i = .skp x ∨ i = .sknp x) ∨
      i = .ret ∨ ∃ nnn, i = .jp nnn ∨ i = .call nnn ∨ i = .jpV0 nnn

/-- R97, R108: of all events only `KeyDown` and `Reset` leave `AwaitingKey`, and only a `Step` that executes `LD Vx, K` enters
it (`KeyUp` does not leave it: D17). -/
def Obligations.ModeChangesOnlyAsListed : Prop :=
  ∀ (e : Event) (s : State),
    (s.mode = .awaitingKey → (applyEvent e s).1.mode = .running → e = .reset ∨ ∃ k, e = .keyDown k) ∧
      (s.mode = .running → (applyEvent e s).1.mode = .awaitingKey →
        (∃ rnd, e = .step rnd) ∧ ∃ x, decode s.wordAtPc = .ok (.ldVxK x))

/-- R99, R108: while no `KeyDown`, `Reset` or `Load` comes, the machine that awaits a key keeps waiting, and its memory,
registers, `I`, `pc`, stack and framebuffer stay as they are, whatever other events are issued, in any order. -/
def Obligations.WaitingMachineKeepsItsProgramState : Prop :=
  ∀ (es : List Event) (s : State), s.keyWait = true →
    (∀ e ∈ es, e ≠ .reset ∧ (∀ k, e ≠ .keyDown k) ∧ ∀ bytes, e ≠ .load bytes) →
    ∃ t, runEvents es s = t ∧ t = { s with
      dt := t.dt, st := t.st, latch := t.latch, drawReady := t.drawReady, report := t.report }

/-- R118 (the definition is the spec's offer, D30; that a terminal state is not waiting is the model's addition, log 28): in a
terminal state every `Step` leaves all twelve elements as they are. -/
def Obligations.TerminalStateStays : Prop :=
  ∀ (rnd : Byte) (s : State), s.Terminal → ∃ t, stepWith rnd s = .next t ∧ s.SameMachine t

/-! ## Host events -/

/-- R110, R111 (font bytes: D23, log 8; latch none: D16): `Reset`, from any state, puts every element at its reset value. -/
def Obligations.ResetSetsEveryElement : Prop :=
  ∀ s : State, ∃ t, applyEvent .reset s = (t, .ok) ∧ State.reset.SameMachine t ∧
    (∀ x, t.reg x = 0x00#8) ∧ t.i = 0x0000#16 ∧ t.pc = 0x0200#16 ∧
    (∀ k : Fin Config.stackDepth, t.stack[k] = 0x0000#16) ∧ t.sp.val = 0 ∧ t.dt = 0x00#8 ∧ t.st = 0x00#8 ∧
    (∀ k, t.fb.cell k = false) ∧ t.latch = none ∧ t.keyWait = false ∧ t.drawReady = false ∧
    (List.range 20).map t.byte =
      [0xF0, 0x90, 0x90, 0x90, 0xF0, 0x20, 0x60, 0x20, 0x20, 0x70] ++
        [0xF0, 0x10, 0xF0, 0x80, 0xF0, 0xF0, 0x10, 0xF0, 0x10, 0xF0] ∧
    (List.range 20).map (fun k => t.byte (20 + k)) =
      [0x90, 0x90, 0xF0, 0x10, 0x10, 0xF0, 0x80, 0xF0, 0x10, 0xF0] ++
        [0xF0, 0x80, 0xF0, 0x90, 0xF0, 0xF0, 0x10, 0x20, 0x40, 0x40] ∧
    (List.range 20).map (fun k => t.byte (40 + k)) =
      [0xF0, 0x90, 0xF0, 0x90, 0xF0, 0xF0, 0x90, 0xF0, 0x10, 0xF0] ++
        [0xF0, 0x90, 0xF0, 0x90, 0x90, 0xE0, 0x90, 0xE0, 0x90, 0xE0] ∧
    (List.range 20).map (fun k => t.byte (60 + k)) =
      [0xF0, 0x80, 0x80, 0x80, 0xF0, 0xE0, 0x90, 0x90, 0x90, 0xE0] ++
        [0xF0, 0x80, 0xF0, 0x80, 0xF0, 0xF0, 0x80, 0xF0, 0x80, 0x80] ∧
    ∀ a, 0x050 ≤ a → a ≤ 0xFFF → t.byte a = 0x00#8

/-- R112 (nothing else is touched, accepted at any time: D28): a program that fits goes to 0x200 upward and changes nothing
else; a longer one is `RomTooLarge` and changes nothing. Canonical memories: log 12. -/
def Obligations.LoadWritesTheProgram : Prop :=
  ∀ (bytes : List Byte) (s : State),
    (bytes.length ≤ 0x0E00 → ∃ t, applyEvent (.load bytes) s = (t, .ok) ∧ t = { s with mem := t.mem } ∧
      (s.canonical = true → (∀ k, ∀ h : k < bytes.length, t.byte (0x200 + k) = bytes[k]) ∧
        ∀ a, a < 0x200 ∨ 0x200 + bytes.length ≤ a → t.byte a = s.byte a)) ∧
      (0x0E00 < bytes.length → applyEvent (.load bytes) s = (s, .romTooLarge))

/-- R119 (derived by the spec): the freshly booted state holds the program from 0x200, the font below 0x050 and zeros
elsewhere, is at 0x200 with an empty stack, and every other element is at its reset value. -/
def Obligations.FreshlyBootedState : Prop :=
  ∀ (bytes : List Byte) (s : State), bytes.length ≤ 0x0E00 →
    ∃ t, bootedWith bytes s = t ∧ State.reset.SameMachine { t with mem := [] } ∧
      (∀ k, ∀ h : k < bytes.length, t.byte (0x200 + k) = bytes[k]) ∧
      (∀ a, a < 0x050 → t.byte a = State.reset.byte a) ∧
      ∀ a, 0x050 ≤ a → a < 0x200 ∨ 0x200 + bytes.length ≤ a → t.byte a = 0x00#8

/-- R100 (in every mode: D29): `Tick` takes one from each timer that is not zero and changes nothing else; after n ticks each
timer is lower by n, never below zero. -/
def Obligations.TicksRunTimersDownToZero : Prop :=
  ∀ (n : Nat) (s : State),
    (∃ t, applyEvent .tick s = (t, .ok) ∧ t.dt.toNat = s.dt.toNat - 1 ∧ t.st.toNat = s.st.toNat - 1 ∧
      t = { s with dt := t.dt, st := t.st }) ∧
    ∃ t, runEvents (List.replicate n .tick) s = t ∧ t.dt.toNat = s.dt.toNat - n ∧ t.st.toNat = s.st.toNat - n ∧
      t = { s with dt := t.dt, st := t.st }

/-- R101, R102 (`KeyUp` keeps `keyWait`: D17): `KeyDown` latches its key and ends the wait, `KeyUp` empties the latch; neither
changes anything else. -/
def Obligations.KeyEventsWriteTheLatch : Prop :=
  ∀ (k : Key) (s : State),
    applyEvent (.keyDown k) s = ({ s with latch := some k, keyWait := false }, .ok) ∧
      applyEvent .keyUp s = ({ s with latch := none }, .ok)

/-- R103: `FrameQuery` answers `drawReady` and changes no state. -/
def Obligations.FrameQueryReadsTheFlag : Prop :=
  ∀ s : State, applyEvent .frameQuery s = (s, .drawReady s.drawReady)

/-- R104 (also with `drawReady` 0: D33): `FrameConsume` answers the bitmap, in which pixel (x, y) is the cell `y*64 + x`, and
clears `drawReady`, nothing else. -/
def Obligations.FrameConsumeReturnsTheBitmap : Prop :=
  ∀ s : State, ∃ fb, applyEvent .frameConsume s = ({ s with drawReady := false }, .frame fb) ∧
    ∀ (p : Pixel) (k : Fin 2048), k.val = p.2.val * 64 + p.1.val → fb.lit p = s.fb.cell k

/-! ## Invariants and canonical memory -/

/-- The invariant (R14, R51, R53: bounds the spec marks as derived; canonical memory: log 12, a DESIGN CHOICE of the model) holds
after `Reset`. -/
def Obligations.ResetMeetsTheInvariant : Prop := State.reset.Inv

/-- R14, R51, R53 (bounds the spec marks as derived; canonical memory: log 12, a DESIGN CHOICE of the model): from every state that
meets it, a `step` that answers a next state keeps the invariant: canonical memory, `pc` at most 0x10FE, every stack slot at most
0xFFE. -/
def Obligations.StepKeepsTheInvariant : Prop := ∀ s t : State, s.Inv → step s = .next t → t.Inv

/-- R105 (any finite sequence of events is a possible run) with R14, R51, R53 (bounds the spec marks as derived; canonical memory:
log 12, a DESIGN CHOICE of the model): every sequence of host events, in any order, from every state that meets the invariant ends
in one that does: canonical memory, `pc` at most 0x10FE, every stack slot at most 0xFFE. -/
def Obligations.EventsKeepTheInvariant : Prop := ∀ (es : List Event) (s : State), s.Inv → (runEvents es s).Inv

/-- Log 12 (DESIGN CHOICE of the model, not a rule of the spec): under every font, memories in canonical form that read
alike at every address are equal. -/
def Obligations.CanonicalMemoryIsUnique : Prop :=
  ∀ (font : Font) (m m' : Memory), m.wf font = true → m'.wf font = true →
    (∀ a, m.byte font a = m'.byte font a) → m = m'

/-! ## Parameters -/

/-- R4 (parameters as arguments; log 27): every value of a parameter runs its own rule: `SHL_FLAG_RULE` and `DRAW_EDGE` in `SHL`
and `DRW`, `STACK_DEPTH` in `CALL`, `FONT` in the memory after `Reset`, the numerals in the decoder of a `Step`. At the values the
spec takes (D1, D4, D6, D10, D23) the machine with parameters is this hardware, in its decoder, encoder, instructions, steps and
events. -/
def Obligations.ParametersAreArguments : Prop :=
  (∀ (p : Params) (s : State p),
    (∀ x y, execUnder (.shl x y) s = execShlUnder p.shlFlagRule x s) ∧
    (∀ x y n, execUnder (.drw x y n) s = execDrwUnder p.drawEdge x y n s) ∧
    (∀ nnn, (s.sp.val < p.stackDepth → ∃ t, execUnder (.call nnn) s = .next t ∧ t.sp.val = s.sp.val + 1) ∧
      (s.sp.val = p.stackDepth → execUnder (.call nnn) s = .fault (.stackOverflow s.pc))) ∧
    (∀ k : Fin 80, (applyEventUnder .reset s).1.byte k.val = p.font[k]) ∧
    (∀ a, 80 ≤ a → (applyEventUnder .reset s).1.byte a = 0x00#8) ∧
    (s.keyWait = false → s.pc.toNat ≤ 0xFFE → ∀ rnd,
      (∀ i, decodeUnder p.numerals s.wordAtPc = some i →
        stepUnder rnd s = execUnder i { s with rnd := rnd, report := .ok }) ∧
      (decodeUnder p.numerals s.wordAtPc = none → ∃ t, stepUnder rnd s = .next t ∧ t.pc = s.pc + 2#16 ∧
        t = { s with pc := t.pc, rnd := rnd, report := .unsupportedOpcode s.wordAtPc s.pc }))) ∧
  (∀ w, decodeUnder Config.numerals w = (decode w).toOption) ∧
  (∀ i, encodeUnder Config.numerals i = encode i) ∧
  (∀ (i : Instr) (s : State), execUnder i s = exec i s) ∧
  (∀ (rnd : Byte) (s : State), stepUnder rnd s = stepWith rnd s) ∧
  ∀ (e : Event) (s : State), applyEventUnder e s = applyEvent e s
end

