-- ==== Sys2Proof/Laws/Decode.lean ====
section
/-! SUPPORT. Words, fields and encoded words as numbers, and what each field of an encoded word is. -/

namespace Sys2Proof

/-! ## Fields as quotients and remainders -/

theorem fieldClass_toNat (w : Word) : (fieldClass w).toNat = w.toNat / 4096 := by
  simp only [fieldClass, BitVec.extractLsb'_toNat, Nat.shiftRight_eq_div_pow]
  omega

theorem fieldX_val (w : Word) : (fieldX w).val = w.toNat / 256 % 16 := by
  simp [fieldX, Nat.shiftRight_eq_div_pow]

theorem fieldY_val (w : Word) : (fieldY w).val = w.toNat / 16 % 16 := by
  simp [fieldY, Nat.shiftRight_eq_div_pow]

theorem fieldN_val (w : Word) : (fieldN w).val = w.toNat % 16 := by
  simp [fieldN]

theorem fieldNN_toNat (w : Word) : (fieldNN w).toNat = w.toNat % 256 := by
  simp [fieldNN]

theorem fieldNNN_toNat (w : Word) : (fieldNNN w).toNat = w.toNat % 4096 := by
  simp [fieldNNN]

/-! ## Words from their parts -/

theorem toNat_append_eq {n m : Nat} (a : BitVec n) (b : BitVec m) : (a ++ b).toNat = a.toNat * 2 ^ m + b.toNat := by
  rw [BitVec.toNat_append, ← Nat.shiftLeft_add_eq_or_of_lt b.isLt, Nat.shiftLeft_eq]

@[simp] theorem nibble_toNat (k : Fin 16) : (nibble k).toNat = k.val := rfl

theorem encodeNNN_toNat (c : BitVec 4) (nnn : Addr12) : (encodeNNN c nnn).toNat = c.toNat * 4096 + nnn.toNat :=
  toNat_append_eq c nnn

theorem encodeXNN_toNat (c : BitVec 4) (x : RegIx) (nn : Byte) :
    (encodeXNN c x nn).toNat = c.toNat * 4096 + (x.val * 256 + nn.toNat) := by
  have h : (encodeXNN c x nn).toNat = c.toNat * 2 ^ 12 + (nibble x ++ nn).toNat := toNat_append_eq c _
  rw [h, toNat_append_eq, nibble_toNat]
  omega

theorem encodeXYN_toNat (c : BitVec 4) (x y : RegIx) (n : Rows) :
    (encodeXYN c x y n).toNat = c.toNat * 4096 + (x.val * 256 + (y.val * 16 + n.val)) := by
  have h : (encodeXYN c x y n).toNat = c.toNat * 2 ^ 12 + (nibble x ++ (nibble y ++ nibble n)).toNat :=
    toNat_append_eq c _
  have h' : (nibble x ++ (nibble y ++ nibble n)).toNat = x.val * 2 ^ 8 + (nibble y ++ nibble n).toNat :=
    toNat_append_eq (nibble x) _
  rw [h, h', toNat_append_eq, nibble_toNat, nibble_toNat]
  omega

theorem wordOfBytes_toNat (hi lo : Byte) : (wordOfBytes hi lo).toNat = hi.toNat * 256 + lo.toNat :=
  toNat_append_eq hi lo

/-- The two bytes of a word, put together, are the word (R31). -/
theorem wordOfBytes_bytesOfWord (w : Word) : wordOfBytes (bytesOfWord w).1 (bytesOfWord w).2 = w := by
  apply BitVec.eq_of_toNat_eq
  rw [wordOfBytes_toNat]
  simp only [bytesOfWord, BitVec.extractLsb'_toNat, Nat.shiftRight_eq_div_pow]
  omega

/-! ## The fields of an encoded word -/

@[simp] theorem fieldClass_encodeNNN (c : BitVec 4) (nnn : Addr12) : fieldClass (encodeNNN c nnn) = c := by
  apply BitVec.eq_of_toNat_eq
  rw [fieldClass_toNat, encodeNNN_toNat]
  omega

@[simp] theorem fieldNNN_encodeNNN (c : BitVec 4) (nnn : Addr12) : fieldNNN (encodeNNN c nnn) = nnn := by
  apply BitVec.eq_of_toNat_eq
  rw [fieldNNN_toNat, encodeNNN_toNat]
  omega

@[simp] theorem fieldClass_encodeXNN (c : BitVec 4) (x : RegIx) (nn : Byte) : fieldClass (encodeXNN c x nn) = c := by
  apply BitVec.eq_of_toNat_eq
  rw [fieldClass_toNat, encodeXNN_toNat]
  omega

@[simp] theorem fieldX_encodeXNN (c : BitVec 4) (x : RegIx) (nn : Byte) : fieldX (encodeXNN c x nn) = x := by
  apply Fin.ext
  rw [fieldX_val, encodeXNN_toNat]
  omega

@[simp] theorem fieldNN_encodeXNN (c : BitVec 4) (x : RegIx) (nn : Byte) : fieldNN (encodeXNN c x nn) = nn := by
  apply BitVec.eq_of_toNat_eq
  rw [fieldNN_toNat, encodeXNN_toNat]
  omega

@[simp] theorem fieldClass_encodeXYN (c : BitVec 4) (x y : RegIx) (n : Rows) : fieldClass (encodeXYN c x y n) = c := by
  apply BitVec.eq_of_toNat_eq
  rw [fieldClass_toNat, encodeXYN_toNat]
  omega

@[simp] theorem fieldX_encodeXYN (c : BitVec 4) (x y : RegIx) (n : Rows) : fieldX (encodeXYN c x y n) = x := by
  apply Fin.ext
  rw [fieldX_val, encodeXYN_toNat]
  omega

@[simp] theorem fieldY_encodeXYN (c : BitVec 4) (x y : RegIx) (n : Rows) : fieldY (encodeXYN c x y n) = y := by
  apply Fin.ext
  rw [fieldY_val, encodeXYN_toNat]
  omega

@[simp] theorem fieldN_encodeXYN (c : BitVec 4) (x y : RegIx) (n : Rows) : fieldN (encodeXYN c x y n) = n := by
  apply Fin.ext
  rw [fieldN_val, encodeXYN_toNat]
  omega

/-- An encoded `SYS` is `CLS` or `RET` only for the two addresses that `Instr.wf` refuses. -/
theorem encodeNNN_zero_eq_iff (nnn a : Addr12) : encodeNNN 0x0 nnn = encodeNNN 0x0 a ↔ nnn = a := by
  constructor
  · intro h
    have := congrArg fieldNNN h
    simpa using this
  · rintro rfl
    rfl

end Sys2Proof
end

