-- ==== Sys2Proof/Laws/State.lean ====
section
/-! SUPPORT. For every update of the state, one lemma per field it leaves or sets, true by rfl, so that no later proof unfolds a
record update; and the reads of a register after an update. -/

namespace Sys2Proof.Machine

variable {p : Params}

@[simp] theorem State.setReg_mem (s : State p) (x : RegIx) (b : Byte) : (s.setReg x b).mem = s.mem := rfl
@[simp] theorem State.setReg_v (s : State p) (x : RegIx) (b : Byte) : (s.setReg x b).v = s.v.set x b := rfl
@[simp] theorem State.setReg_i (s : State p) (x : RegIx) (b : Byte) : (s.setReg x b).i = s.i := rfl
@[simp] theorem State.setReg_pc (s : State p) (x : RegIx) (b : Byte) : (s.setReg x b).pc = s.pc := rfl
@[simp] theorem State.setReg_stack (s : State p) (x : RegIx) (b : Byte) : (s.setReg x b).stack = s.stack := rfl
@[simp] theorem State.setReg_sp (s : State p) (x : RegIx) (b : Byte) : (s.setReg x b).sp = s.sp := rfl
@[simp] theorem State.setReg_dt (s : State p) (x : RegIx) (b : Byte) : (s.setReg x b).dt = s.dt := rfl
@[simp] theorem State.setReg_st (s : State p) (x : RegIx) (b : Byte) : (s.setReg x b).st = s.st := rfl
@[simp] theorem State.setReg_fb (s : State p) (x : RegIx) (b : Byte) : (s.setReg x b).fb = s.fb := rfl
@[simp] theorem State.setReg_latch (s : State p) (x : RegIx) (b : Byte) : (s.setReg x b).latch = s.latch := rfl
@[simp] theorem State.setReg_keyWait (s : State p) (x : RegIx) (b : Byte) : (s.setReg x b).keyWait = s.keyWait := rfl
@[simp] theorem State.setReg_drawReady (s : State p) (x : RegIx) (b : Byte) : (s.setReg x b).drawReady = s.drawReady := rfl
@[simp] theorem State.setReg_rnd (s : State p) (x : RegIx) (b : Byte) : (s.setReg x b).rnd = s.rnd := rfl
@[simp] theorem State.setReg_draws (s : State p) (x : RegIx) (b : Byte) : (s.setReg x b).draws = s.draws := rfl
@[simp] theorem State.setReg_report (s : State p) (x : RegIx) (b : Byte) : (s.setReg x b).report = s.report := rfl
@[simp] theorem State.setReg_byte (s : State p) (x : RegIx) (b : Byte) (a : Nat) : (s.setReg x b).byte a = s.byte a := rfl
@[simp] theorem State.setReg_canonical (s : State p) (x : RegIx) (b : Byte) : (s.setReg x b).canonical = s.canonical := rfl

@[simp] theorem State.setRegs_mem (s : State p) (bs : List Byte) : (s.setRegs bs).mem = s.mem := rfl
@[simp] theorem State.setRegs_v (s : State p) (bs : List Byte) : (s.setRegs bs).v = Vector.ofFn fun k => (bs[k.val]?).getD s.v[k] := rfl
@[simp] theorem State.setRegs_i (s : State p) (bs : List Byte) : (s.setRegs bs).i = s.i := rfl
@[simp] theorem State.setRegs_pc (s : State p) (bs : List Byte) : (s.setRegs bs).pc = s.pc := rfl
@[simp] theorem State.setRegs_stack (s : State p) (bs : List Byte) : (s.setRegs bs).stack = s.stack := rfl
@[simp] theorem State.setRegs_sp (s : State p) (bs : List Byte) : (s.setRegs bs).sp = s.sp := rfl
@[simp] theorem State.setRegs_dt (s : State p) (bs : List Byte) : (s.setRegs bs).dt = s.dt := rfl
@[simp] theorem State.setRegs_st (s : State p) (bs : List Byte) : (s.setRegs bs).st = s.st := rfl
@[simp] theorem State.setRegs_fb (s : State p) (bs : List Byte) : (s.setRegs bs).fb = s.fb := rfl
@[simp] theorem State.setRegs_latch (s : State p) (bs : List Byte) : (s.setRegs bs).latch = s.latch := rfl
@[simp] theorem State.setRegs_keyWait (s : State p) (bs : List Byte) : (s.setRegs bs).keyWait = s.keyWait := rfl
@[simp] theorem State.setRegs_drawReady (s : State p) (bs : List Byte) : (s.setRegs bs).drawReady = s.drawReady := rfl
@[simp] theorem State.setRegs_rnd (s : State p) (bs : List Byte) : (s.setRegs bs).rnd = s.rnd := rfl
@[simp] theorem State.setRegs_draws (s : State p) (bs : List Byte) : (s.setRegs bs).draws = s.draws := rfl
@[simp] theorem State.setRegs_report (s : State p) (bs : List Byte) : (s.setRegs bs).report = s.report := rfl
@[simp] theorem State.setRegs_byte (s : State p) (bs : List Byte) (a : Nat) : (s.setRegs bs).byte a = s.byte a := rfl
@[simp] theorem State.setRegs_canonical (s : State p) (bs : List Byte) : (s.setRegs bs).canonical = s.canonical := rfl

@[simp] theorem State.setFlag_mem (s : State p) (b : Bool) : (s.setFlag b).mem = s.mem := rfl
@[simp] theorem State.setFlag_v (s : State p) (b : Bool) : (s.setFlag b).v = s.v.set flagReg (flagByte b) := rfl
@[simp] theorem State.setFlag_i (s : State p) (b : Bool) : (s.setFlag b).i = s.i := rfl
@[simp] theorem State.setFlag_pc (s : State p) (b : Bool) : (s.setFlag b).pc = s.pc := rfl
@[simp] theorem State.setFlag_stack (s : State p) (b : Bool) : (s.setFlag b).stack = s.stack := rfl
@[simp] theorem State.setFlag_sp (s : State p) (b : Bool) : (s.setFlag b).sp = s.sp := rfl
@[simp] theorem State.setFlag_dt (s : State p) (b : Bool) : (s.setFlag b).dt = s.dt := rfl
@[simp] theorem State.setFlag_st (s : State p) (b : Bool) : (s.setFlag b).st = s.st := rfl
@[simp] theorem State.setFlag_fb (s : State p) (b : Bool) : (s.setFlag b).fb = s.fb := rfl
@[simp] theorem State.setFlag_latch (s : State p) (b : Bool) : (s.setFlag b).latch = s.latch := rfl
@[simp] theorem State.setFlag_keyWait (s : State p) (b : Bool) : (s.setFlag b).keyWait = s.keyWait := rfl
@[simp] theorem State.setFlag_drawReady (s : State p) (b : Bool) : (s.setFlag b).drawReady = s.drawReady := rfl
@[simp] theorem State.setFlag_rnd (s : State p) (b : Bool) : (s.setFlag b).rnd = s.rnd := rfl
@[simp] theorem State.setFlag_draws (s : State p) (b : Bool) : (s.setFlag b).draws = s.draws := rfl
@[simp] theorem State.setFlag_report (s : State p) (b : Bool) : (s.setFlag b).report = s.report := rfl
@[simp] theorem State.setFlag_byte (s : State p) (b : Bool) (a : Nat) : (s.setFlag b).byte a = s.byte a := rfl
@[simp] theorem State.setFlag_canonical (s : State p) (b : Bool) : (s.setFlag b).canonical = s.canonical := rfl

@[simp] theorem State.setResultAndFlag_mem (s : State p) (x : RegIx) (r : Byte) (b : Bool) : (s.setResultAndFlag x r b).mem = s.mem := rfl
@[simp] theorem State.setResultAndFlag_v (s : State p) (x : RegIx) (r : Byte) (b : Bool) : (s.setResultAndFlag x r b).v = (s.v.set x r).set flagReg (flagByte b) := rfl
@[simp] theorem State.setResultAndFlag_i (s : State p) (x : RegIx) (r : Byte) (b : Bool) : (s.setResultAndFlag x r b).i = s.i := rfl
@[simp] theorem State.setResultAndFlag_pc (s : State p) (x : RegIx) (r : Byte) (b : Bool) : (s.setResultAndFlag x r b).pc = s.pc := rfl
@[simp] theorem State.setResultAndFlag_stack (s : State p) (x : RegIx) (r : Byte) (b : Bool) : (s.setResultAndFlag x r b).stack = s.stack := rfl
@[simp] theorem State.setResultAndFlag_sp (s : State p) (x : RegIx) (r : Byte) (b : Bool) : (s.setResultAndFlag x r b).sp = s.sp := rfl
@[simp] theorem State.setResultAndFlag_dt (s : State p) (x : RegIx) (r : Byte) (b : Bool) : (s.setResultAndFlag x r b).dt = s.dt := rfl
@[simp] theorem State.setResultAndFlag_st (s : State p) (x : RegIx) (r : Byte) (b : Bool) : (s.setResultAndFlag x r b).st = s.st := rfl
@[simp] theorem State.setResultAndFlag_fb (s : State p) (x : RegIx) (r : Byte) (b : Bool) : (s.setResultAndFlag x r b).fb = s.fb := rfl
@[simp] theorem State.setResultAndFlag_latch (s : State p) (x : RegIx) (r : Byte) (b : Bool) : (s.setResultAndFlag x r b).latch = s.latch := rfl
@[simp] theorem State.setResultAndFlag_keyWait (s : State p) (x : RegIx) (r : Byte) (b : Bool) : (s.setResultAndFlag x r b).keyWait = s.keyWait := rfl
@[simp] theorem State.setResultAndFlag_drawReady (s : State p) (x : RegIx) (r : Byte) (b : Bool) : (s.setResultAndFlag x r b).drawReady = s.drawReady := rfl
@[simp] theorem State.setResultAndFlag_rnd (s : State p) (x : RegIx) (r : Byte) (b : Bool) : (s.setResultAndFlag x r b).rnd = s.rnd := rfl
@[simp] theorem State.setResultAndFlag_draws (s : State p) (x : RegIx) (r : Byte) (b : Bool) : (s.setResultAndFlag x r b).draws = s.draws := rfl
@[simp] theorem State.setResultAndFlag_report (s : State p) (x : RegIx) (r : Byte) (b : Bool) : (s.setResultAndFlag x r b).report = s.report := rfl
@[simp] theorem State.setResultAndFlag_byte (s : State p) (x : RegIx) (r : Byte) (b : Bool) (a : Nat) : (s.setResultAndFlag x r b).byte a = s.byte a := rfl
@[simp] theorem State.setResultAndFlag_canonical (s : State p) (x : RegIx) (r : Byte) (b : Bool) : (s.setResultAndFlag x r b).canonical = s.canonical := rfl

@[simp] theorem State.setI_mem (s : State p) (w : Word) : (s.setI w).mem = s.mem := rfl
@[simp] theorem State.setI_v (s : State p) (w : Word) : (s.setI w).v = s.v := rfl
@[simp] theorem State.setI_i (s : State p) (w : Word) : (s.setI w).i = w := rfl
@[simp] theorem State.setI_pc (s : State p) (w : Word) : (s.setI w).pc = s.pc := rfl
@[simp] theorem State.setI_stack (s : State p) (w : Word) : (s.setI w).stack = s.stack := rfl
@[simp] theorem State.setI_sp (s : State p) (w : Word) : (s.setI w).sp = s.sp := rfl
@[simp] theorem State.setI_dt (s : State p) (w : Word) : (s.setI w).dt = s.dt := rfl
@[simp] theorem State.setI_st (s : State p) (w : Word) : (s.setI w).st = s.st := rfl
@[simp] theorem State.setI_fb (s : State p) (w : Word) : (s.setI w).fb = s.fb := rfl
@[simp] theorem State.setI_latch (s : State p) (w : Word) : (s.setI w).latch = s.latch := rfl
@[simp] theorem State.setI_keyWait (s : State p) (w : Word) : (s.setI w).keyWait = s.keyWait := rfl
@[simp] theorem State.setI_drawReady (s : State p) (w : Word) : (s.setI w).drawReady = s.drawReady := rfl
@[simp] theorem State.setI_rnd (s : State p) (w : Word) : (s.setI w).rnd = s.rnd := rfl
@[simp] theorem State.setI_draws (s : State p) (w : Word) : (s.setI w).draws = s.draws := rfl
@[simp] theorem State.setI_report (s : State p) (w : Word) : (s.setI w).report = s.report := rfl
@[simp] theorem State.setI_reg (s : State p) (w : Word) (r : RegIx) : (s.setI w).reg r = s.reg r := rfl
@[simp] theorem State.setI_byte (s : State p) (w : Word) (a : Nat) : (s.setI w).byte a = s.byte a := rfl
@[simp] theorem State.setI_canonical (s : State p) (w : Word) : (s.setI w).canonical = s.canonical := rfl

@[simp] theorem State.setDt_mem (s : State p) (b : Byte) : (s.setDt b).mem = s.mem := rfl
@[simp] theorem State.setDt_v (s : State p) (b : Byte) : (s.setDt b).v = s.v := rfl
@[simp] theorem State.setDt_i (s : State p) (b : Byte) : (s.setDt b).i = s.i := rfl
@[simp] theorem State.setDt_pc (s : State p) (b : Byte) : (s.setDt b).pc = s.pc := rfl
@[simp] theorem State.setDt_stack (s : State p) (b : Byte) : (s.setDt b).stack = s.stack := rfl
@[simp] theorem State.setDt_sp (s : State p) (b : Byte) : (s.setDt b).sp = s.sp := rfl
@[simp] theorem State.setDt_dt (s : State p) (b : Byte) : (s.setDt b).dt = b := rfl
@[simp] theorem State.setDt_st (s : State p) (b : Byte) : (s.setDt b).st = s.st := rfl
@[simp] theorem State.setDt_fb (s : State p) (b : Byte) : (s.setDt b).fb = s.fb := rfl
@[simp] theorem State.setDt_latch (s : State p) (b : Byte) : (s.setDt b).latch = s.latch := rfl
@[simp] theorem State.setDt_keyWait (s : State p) (b : Byte) : (s.setDt b).keyWait = s.keyWait := rfl
@[simp] theorem State.setDt_drawReady (s : State p) (b : Byte) : (s.setDt b).drawReady = s.drawReady := rfl
@[simp] theorem State.setDt_rnd (s : State p) (b : Byte) : (s.setDt b).rnd = s.rnd := rfl
@[simp] theorem State.setDt_draws (s : State p) (b : Byte) : (s.setDt b).draws = s.draws := rfl
@[simp] theorem State.setDt_report (s : State p) (b : Byte) : (s.setDt b).report = s.report := rfl
@[simp] theorem State.setDt_reg (s : State p) (b : Byte) (r : RegIx) : (s.setDt b).reg r = s.reg r := rfl
@[simp] theorem State.setDt_byte (s : State p) (b : Byte) (a : Nat) : (s.setDt b).byte a = s.byte a := rfl
@[simp] theorem State.setDt_canonical (s : State p) (b : Byte) : (s.setDt b).canonical = s.canonical := rfl

@[simp] theorem State.setSt_mem (s : State p) (b : Byte) : (s.setSt b).mem = s.mem := rfl
@[simp] theorem State.setSt_v (s : State p) (b : Byte) : (s.setSt b).v = s.v := rfl
@[simp] theorem State.setSt_i (s : State p) (b : Byte) : (s.setSt b).i = s.i := rfl
@[simp] theorem State.setSt_pc (s : State p) (b : Byte) : (s.setSt b).pc = s.pc := rfl
@[simp] theorem State.setSt_stack (s : State p) (b : Byte) : (s.setSt b).stack = s.stack := rfl
@[simp] theorem State.setSt_sp (s : State p) (b : Byte) : (s.setSt b).sp = s.sp := rfl
@[simp] theorem State.setSt_dt (s : State p) (b : Byte) : (s.setSt b).dt = s.dt := rfl
@[simp] theorem State.setSt_st (s : State p) (b : Byte) : (s.setSt b).st = b := rfl
@[simp] theorem State.setSt_fb (s : State p) (b : Byte) : (s.setSt b).fb = s.fb := rfl
@[simp] theorem State.setSt_latch (s : State p) (b : Byte) : (s.setSt b).latch = s.latch := rfl
@[simp] theorem State.setSt_keyWait (s : State p) (b : Byte) : (s.setSt b).keyWait = s.keyWait := rfl
@[simp] theorem State.setSt_drawReady (s : State p) (b : Byte) : (s.setSt b).drawReady = s.drawReady := rfl
@[simp] theorem State.setSt_rnd (s : State p) (b : Byte) : (s.setSt b).rnd = s.rnd := rfl
@[simp] theorem State.setSt_draws (s : State p) (b : Byte) : (s.setSt b).draws = s.draws := rfl
@[simp] theorem State.setSt_report (s : State p) (b : Byte) : (s.setSt b).report = s.report := rfl
@[simp] theorem State.setSt_reg (s : State p) (b : Byte) (r : RegIx) : (s.setSt b).reg r = s.reg r := rfl
@[simp] theorem State.setSt_byte (s : State p) (b : Byte) (a : Nat) : (s.setSt b).byte a = s.byte a := rfl
@[simp] theorem State.setSt_canonical (s : State p) (b : Byte) : (s.setSt b).canonical = s.canonical := rfl

@[simp] theorem State.setMem_mem (s : State p) (m : Memory) : (s.setMem m).mem = m := rfl
@[simp] theorem State.setMem_v (s : State p) (m : Memory) : (s.setMem m).v = s.v := rfl
@[simp] theorem State.setMem_i (s : State p) (m : Memory) : (s.setMem m).i = s.i := rfl
@[simp] theorem State.setMem_pc (s : State p) (m : Memory) : (s.setMem m).pc = s.pc := rfl
@[simp] theorem State.setMem_stack (s : State p) (m : Memory) : (s.setMem m).stack = s.stack := rfl
@[simp] theorem State.setMem_sp (s : State p) (m : Memory) : (s.setMem m).sp = s.sp := rfl
@[simp] theorem State.setMem_dt (s : State p) (m : Memory) : (s.setMem m).dt = s.dt := rfl
@[simp] theorem State.setMem_st (s : State p) (m : Memory) : (s.setMem m).st = s.st := rfl
@[simp] theorem State.setMem_fb (s : State p) (m : Memory) : (s.setMem m).fb = s.fb := rfl
@[simp] theorem State.setMem_latch (s : State p) (m : Memory) : (s.setMem m).latch = s.latch := rfl
@[simp] theorem State.setMem_keyWait (s : State p) (m : Memory) : (s.setMem m).keyWait = s.keyWait := rfl
@[simp] theorem State.setMem_drawReady (s : State p) (m : Memory) : (s.setMem m).drawReady = s.drawReady := rfl
@[simp] theorem State.setMem_rnd (s : State p) (m : Memory) : (s.setMem m).rnd = s.rnd := rfl
@[simp] theorem State.setMem_draws (s : State p) (m : Memory) : (s.setMem m).draws = s.draws := rfl
@[simp] theorem State.setMem_report (s : State p) (m : Memory) : (s.setMem m).report = s.report := rfl
@[simp] theorem State.setMem_reg (s : State p) (m : Memory) (r : RegIx) : (s.setMem m).reg r = s.reg r := rfl

@[simp] theorem State.setFrame_mem (s : State p) (fb : Framebuffer) : (s.setFrame fb).mem = s.mem := rfl
@[simp] theorem State.setFrame_v (s : State p) (fb : Framebuffer) : (s.setFrame fb).v = s.v := rfl
@[simp] theorem State.setFrame_i (s : State p) (fb : Framebuffer) : (s.setFrame fb).i = s.i := rfl
@[simp] theorem State.setFrame_pc (s : State p) (fb : Framebuffer) : (s.setFrame fb).pc = s.pc := rfl
@[simp] theorem State.setFrame_stack (s : State p) (fb : Framebuffer) : (s.setFrame fb).stack = s.stack := rfl
@[simp] theorem State.setFrame_sp (s : State p) (fb : Framebuffer) : (s.setFrame fb).sp = s.sp := rfl
@[simp] theorem State.setFrame_dt (s : State p) (fb : Framebuffer) : (s.setFrame fb).dt = s.dt := rfl
@[simp] theorem State.setFrame_st (s : State p) (fb : Framebuffer) : (s.setFrame fb).st = s.st := rfl
@[simp] theorem State.setFrame_fb (s : State p) (fb : Framebuffer) : (s.setFrame fb).fb = fb := rfl
@[simp] theorem State.setFrame_latch (s : State p) (fb : Framebuffer) : (s.setFrame fb).latch = s.latch := rfl
@[simp] theorem State.setFrame_keyWait (s : State p) (fb : Framebuffer) : (s.setFrame fb).keyWait = s.keyWait := rfl
@[simp] theorem State.setFrame_drawReady (s : State p) (fb : Framebuffer) : (s.setFrame fb).drawReady = true := rfl
@[simp] theorem State.setFrame_rnd (s : State p) (fb : Framebuffer) : (s.setFrame fb).rnd = s.rnd := rfl
@[simp] theorem State.setFrame_draws (s : State p) (fb : Framebuffer) : (s.setFrame fb).draws = s.draws := rfl
@[simp] theorem State.setFrame_report (s : State p) (fb : Framebuffer) : (s.setFrame fb).report = s.report := rfl
@[simp] theorem State.setFrame_reg (s : State p) (fb : Framebuffer) (r : RegIx) : (s.setFrame fb).reg r = s.reg r := rfl
@[simp] theorem State.setFrame_byte (s : State p) (fb : Framebuffer) (a : Nat) : (s.setFrame fb).byte a = s.byte a := rfl
@[simp] theorem State.setFrame_canonical (s : State p) (fb : Framebuffer) : (s.setFrame fb).canonical = s.canonical := rfl

@[simp] theorem State.awaitKey_mem (s : State p) : (s.awaitKey).mem = s.mem := rfl
@[simp] theorem State.awaitKey_v (s : State p) : (s.awaitKey).v = s.v := rfl
@[simp] theorem State.awaitKey_i (s : State p) : (s.awaitKey).i = s.i := rfl
@[simp] theorem State.awaitKey_pc (s : State p) : (s.awaitKey).pc = s.pc := rfl
@[simp] theorem State.awaitKey_stack (s : State p) : (s.awaitKey).stack = s.stack := rfl
@[simp] theorem State.awaitKey_sp (s : State p) : (s.awaitKey).sp = s.sp := rfl
@[simp] theorem State.awaitKey_dt (s : State p) : (s.awaitKey).dt = s.dt := rfl
@[simp] theorem State.awaitKey_st (s : State p) : (s.awaitKey).st = s.st := rfl
@[simp] theorem State.awaitKey_fb (s : State p) : (s.awaitKey).fb = s.fb := rfl
@[simp] theorem State.awaitKey_latch (s : State p) : (s.awaitKey).latch = s.latch := rfl
@[simp] theorem State.awaitKey_keyWait (s : State p) : (s.awaitKey).keyWait = true := rfl
@[simp] theorem State.awaitKey_drawReady (s : State p) : (s.awaitKey).drawReady = s.drawReady := rfl
@[simp] theorem State.awaitKey_rnd (s : State p) : (s.awaitKey).rnd = s.rnd := rfl
@[simp] theorem State.awaitKey_draws (s : State p) : (s.awaitKey).draws = s.draws := rfl
@[simp] theorem State.awaitKey_report (s : State p) : (s.awaitKey).report = s.report := rfl
@[simp] theorem State.awaitKey_reg (s : State p) (r : RegIx) : (s.awaitKey).reg r = s.reg r := rfl
@[simp] theorem State.awaitKey_byte (s : State p) (a : Nat) : (s.awaitKey).byte a = s.byte a := rfl
@[simp] theorem State.awaitKey_canonical (s : State p) : (s.awaitKey).canonical = s.canonical := rfl

@[simp] theorem State.setPc_mem (s : State p) (w : Word) : (s.setPc w).mem = s.mem := rfl
@[simp] theorem State.setPc_v (s : State p) (w : Word) : (s.setPc w).v = s.v := rfl
@[simp] theorem State.setPc_i (s : State p) (w : Word) : (s.setPc w).i = s.i := rfl
@[simp] theorem State.setPc_pc (s : State p) (w : Word) : (s.setPc w).pc = w := rfl
@[simp] theorem State.setPc_stack (s : State p) (w : Word) : (s.setPc w).stack = s.stack := rfl
@[simp] theorem State.setPc_sp (s : State p) (w : Word) : (s.setPc w).sp = s.sp := rfl
@[simp] theorem State.setPc_dt (s : State p) (w : Word) : (s.setPc w).dt = s.dt := rfl
@[simp] theorem State.setPc_st (s : State p) (w : Word) : (s.setPc w).st = s.st := rfl
@[simp] theorem State.setPc_fb (s : State p) (w : Word) : (s.setPc w).fb = s.fb := rfl
@[simp] theorem State.setPc_latch (s : State p) (w : Word) : (s.setPc w).latch = s.latch := rfl
@[simp] theorem State.setPc_keyWait (s : State p) (w : Word) : (s.setPc w).keyWait = s.keyWait := rfl
@[simp] theorem State.setPc_drawReady (s : State p) (w : Word) : (s.setPc w).drawReady = s.drawReady := rfl
@[simp] theorem State.setPc_rnd (s : State p) (w : Word) : (s.setPc w).rnd = s.rnd := rfl
@[simp] theorem State.setPc_draws (s : State p) (w : Word) : (s.setPc w).draws = s.draws := rfl
@[simp] theorem State.setPc_report (s : State p) (w : Word) : (s.setPc w).report = s.report := rfl
@[simp] theorem State.setPc_reg (s : State p) (w : Word) (r : RegIx) : (s.setPc w).reg r = s.reg r := rfl
@[simp] theorem State.setPc_byte (s : State p) (w : Word) (a : Nat) : (s.setPc w).byte a = s.byte a := rfl
@[simp] theorem State.setPc_canonical (s : State p) (w : Word) : (s.setPc w).canonical = s.canonical := rfl

@[simp] theorem State.advance_mem (s : State p) : (s.advance).mem = s.mem := rfl
@[simp] theorem State.advance_v (s : State p) : (s.advance).v = s.v := rfl
@[simp] theorem State.advance_i (s : State p) : (s.advance).i = s.i := rfl
@[simp] theorem State.advance_pc (s : State p) : (s.advance).pc = s.pc + 2#16 := rfl
@[simp] theorem State.advance_stack (s : State p) : (s.advance).stack = s.stack := rfl
@[simp] theorem State.advance_sp (s : State p) : (s.advance).sp = s.sp := rfl
@[simp] theorem State.advance_dt (s : State p) : (s.advance).dt = s.dt := rfl
@[simp] theorem State.advance_st (s : State p) : (s.advance).st = s.st := rfl
@[simp] theorem State.advance_fb (s : State p) : (s.advance).fb = s.fb := rfl
@[simp] theorem State.advance_latch (s : State p) : (s.advance).latch = s.latch := rfl
@[simp] theorem State.advance_keyWait (s : State p) : (s.advance).keyWait = s.keyWait := rfl
@[simp] theorem State.advance_drawReady (s : State p) : (s.advance).drawReady = s.drawReady := rfl
@[simp] theorem State.advance_rnd (s : State p) : (s.advance).rnd = s.rnd := rfl
@[simp] theorem State.advance_draws (s : State p) : (s.advance).draws = s.draws := rfl
@[simp] theorem State.advance_report (s : State p) : (s.advance).report = s.report := rfl
@[simp] theorem State.advance_reg (s : State p) (r : RegIx) : (s.advance).reg r = s.reg r := rfl
@[simp] theorem State.advance_byte (s : State p) (a : Nat) : (s.advance).byte a = s.byte a := rfl
@[simp] theorem State.advance_canonical (s : State p) : (s.advance).canonical = s.canonical := rfl

@[simp] theorem State.skipIf_mem (s : State p) (c : Bool) : (s.skipIf c).mem = s.mem := rfl
@[simp] theorem State.skipIf_v (s : State p) (c : Bool) : (s.skipIf c).v = s.v := rfl
@[simp] theorem State.skipIf_i (s : State p) (c : Bool) : (s.skipIf c).i = s.i := rfl
@[simp] theorem State.skipIf_pc (s : State p) (c : Bool) : (s.skipIf c).pc = s.pc + if c then 4#16 else 2#16 := rfl
@[simp] theorem State.skipIf_stack (s : State p) (c : Bool) : (s.skipIf c).stack = s.stack := rfl
@[simp] theorem State.skipIf_sp (s : State p) (c : Bool) : (s.skipIf c).sp = s.sp := rfl
@[simp] theorem State.skipIf_dt (s : State p) (c : Bool) : (s.skipIf c).dt = s.dt := rfl
@[simp] theorem State.skipIf_st (s : State p) (c : Bool) : (s.skipIf c).st = s.st := rfl
@[simp] theorem State.skipIf_fb (s : State p) (c : Bool) : (s.skipIf c).fb = s.fb := rfl
@[simp] theorem State.skipIf_latch (s : State p) (c : Bool) : (s.skipIf c).latch = s.latch := rfl
@[simp] theorem State.skipIf_keyWait (s : State p) (c : Bool) : (s.skipIf c).keyWait = s.keyWait := rfl
@[simp] theorem State.skipIf_drawReady (s : State p) (c : Bool) : (s.skipIf c).drawReady = s.drawReady := rfl
@[simp] theorem State.skipIf_rnd (s : State p) (c : Bool) : (s.skipIf c).rnd = s.rnd := rfl
@[simp] theorem State.skipIf_draws (s : State p) (c : Bool) : (s.skipIf c).draws = s.draws := rfl
@[simp] theorem State.skipIf_report (s : State p) (c : Bool) : (s.skipIf c).report = s.report := rfl
@[simp] theorem State.skipIf_reg (s : State p) (c : Bool) (r : RegIx) : (s.skipIf c).reg r = s.reg r := rfl
@[simp] theorem State.skipIf_byte (s : State p) (c : Bool) (a : Nat) : (s.skipIf c).byte a = s.byte a := rfl
@[simp] theorem State.skipIf_canonical (s : State p) (c : Bool) : (s.skipIf c).canonical = s.canonical := rfl

@[simp] theorem State.pushPc_mem (s : State p) (h : s.sp.val < p.stackDepth) : (s.pushPc h).mem = s.mem := rfl
@[simp] theorem State.pushPc_v (s : State p) (h : s.sp.val < p.stackDepth) : (s.pushPc h).v = s.v := rfl
@[simp] theorem State.pushPc_i (s : State p) (h : s.sp.val < p.stackDepth) : (s.pushPc h).i = s.i := rfl
@[simp] theorem State.pushPc_pc (s : State p) (h : s.sp.val < p.stackDepth) : (s.pushPc h).pc = s.pc := rfl
@[simp] theorem State.pushPc_stack (s : State p) (h : s.sp.val < p.stackDepth) : (s.pushPc h).stack = s.stack.set s.sp.val s.pc h := rfl
@[simp] theorem State.pushPc_sp (s : State p) (h : s.sp.val < p.stackDepth) : (s.pushPc h).sp = ⟨s.sp.val + 1, Nat.succ_lt_succ h⟩ := rfl
@[simp] theorem State.pushPc_dt (s : State p) (h : s.sp.val < p.stackDepth) : (s.pushPc h).dt = s.dt := rfl
@[simp] theorem State.pushPc_st (s : State p) (h : s.sp.val < p.stackDepth) : (s.pushPc h).st = s.st := rfl
@[simp] theorem State.pushPc_fb (s : State p) (h : s.sp.val < p.stackDepth) : (s.pushPc h).fb = s.fb := rfl
@[simp] theorem State.pushPc_latch (s : State p) (h : s.sp.val < p.stackDepth) : (s.pushPc h).latch = s.latch := rfl
@[simp] theorem State.pushPc_keyWait (s : State p) (h : s.sp.val < p.stackDepth) : (s.pushPc h).keyWait = s.keyWait := rfl
@[simp] theorem State.pushPc_drawReady (s : State p) (h : s.sp.val < p.stackDepth) : (s.pushPc h).drawReady = s.drawReady := rfl
@[simp] theorem State.pushPc_rnd (s : State p) (h : s.sp.val < p.stackDepth) : (s.pushPc h).rnd = s.rnd := rfl
@[simp] theorem State.pushPc_draws (s : State p) (h : s.sp.val < p.stackDepth) : (s.pushPc h).draws = s.draws := rfl
@[simp] theorem State.pushPc_report (s : State p) (h : s.sp.val < p.stackDepth) : (s.pushPc h).report = s.report := rfl
@[simp] theorem State.pushPc_reg (s : State p) (h : s.sp.val < p.stackDepth) (r : RegIx) : (s.pushPc h).reg r = s.reg r := rfl
@[simp] theorem State.pushPc_byte (s : State p) (h : s.sp.val < p.stackDepth) (a : Nat) : (s.pushPc h).byte a = s.byte a := rfl
@[simp] theorem State.pushPc_canonical (s : State p) (h : s.sp.val < p.stackDepth) : (s.pushPc h).canonical = s.canonical := rfl

@[simp] theorem State.pop_mem (s : State p) : (s.pop).mem = s.mem := rfl
@[simp] theorem State.pop_v (s : State p) : (s.pop).v = s.v := rfl
@[simp] theorem State.pop_i (s : State p) : (s.pop).i = s.i := rfl
@[simp] theorem State.pop_pc (s : State p) : (s.pop).pc = s.pc := rfl
@[simp] theorem State.pop_stack (s : State p) : (s.pop).stack = s.stack := rfl
@[simp] theorem State.pop_sp (s : State p) : (s.pop).sp = ⟨s.sp.val - 1, by omega⟩ := rfl
@[simp] theorem State.pop_dt (s : State p) : (s.pop).dt = s.dt := rfl
@[simp] theorem State.pop_st (s : State p) : (s.pop).st = s.st := rfl
@[simp] theorem State.pop_fb (s : State p) : (s.pop).fb = s.fb := rfl
@[simp] theorem State.pop_latch (s : State p) : (s.pop).latch = s.latch := rfl
@[simp] theorem State.pop_keyWait (s : State p) : (s.pop).keyWait = s.keyWait := rfl
@[simp] theorem State.pop_drawReady (s : State p) : (s.pop).drawReady = s.drawReady := rfl
@[simp] theorem State.pop_rnd (s : State p) : (s.pop).rnd = s.rnd := rfl
@[simp] theorem State.pop_draws (s : State p) : (s.pop).draws = s.draws := rfl
@[simp] theorem State.pop_report (s : State p) : (s.pop).report = s.report := rfl
@[simp] theorem State.pop_reg (s : State p) (r : RegIx) : (s.pop).reg r = s.reg r := rfl
@[simp] theorem State.pop_byte (s : State p) (a : Nat) : (s.pop).byte a = s.byte a := rfl
@[simp] theorem State.pop_canonical (s : State p) : (s.pop).canonical = s.canonical := rfl

@[simp] theorem State.raiseUnsupported_mem (s : State p) (w : Word) : (s.raiseUnsupported w).mem = s.mem := rfl
@[simp] theorem State.raiseUnsupported_v (s : State p) (w : Word) : (s.raiseUnsupported w).v = s.v := rfl
@[simp] theorem State.raiseUnsupported_i (s : State p) (w : Word) : (s.raiseUnsupported w).i = s.i := rfl
@[simp] theorem State.raiseUnsupported_pc (s : State p) (w : Word) : (s.raiseUnsupported w).pc = s.pc + 2#16 := rfl
@[simp] theorem State.raiseUnsupported_stack (s : State p) (w : Word) : (s.raiseUnsupported w).stack = s.stack := rfl
@[simp] theorem State.raiseUnsupported_sp (s : State p) (w : Word) : (s.raiseUnsupported w).sp = s.sp := rfl
@[simp] theorem State.raiseUnsupported_dt (s : State p) (w : Word) : (s.raiseUnsupported w).dt = s.dt := rfl
@[simp] theorem State.raiseUnsupported_st (s : State p) (w : Word) : (s.raiseUnsupported w).st = s.st := rfl
@[simp] theorem State.raiseUnsupported_fb (s : State p) (w : Word) : (s.raiseUnsupported w).fb = s.fb := rfl
@[simp] theorem State.raiseUnsupported_latch (s : State p) (w : Word) : (s.raiseUnsupported w).latch = s.latch := rfl
@[simp] theorem State.raiseUnsupported_keyWait (s : State p) (w : Word) : (s.raiseUnsupported w).keyWait = s.keyWait := rfl
@[simp] theorem State.raiseUnsupported_drawReady (s : State p) (w : Word) : (s.raiseUnsupported w).drawReady = s.drawReady := rfl
@[simp] theorem State.raiseUnsupported_rnd (s : State p) (w : Word) : (s.raiseUnsupported w).rnd = s.rnd := rfl
@[simp] theorem State.raiseUnsupported_draws (s : State p) (w : Word) : (s.raiseUnsupported w).draws = s.draws := rfl
@[simp] theorem State.raiseUnsupported_report (s : State p) (w : Word) : (s.raiseUnsupported w).report = .unsupportedOpcode w s.pc := rfl
@[simp] theorem State.raiseUnsupported_reg (s : State p) (w : Word) (r : RegIx) : (s.raiseUnsupported w).reg r = s.reg r := rfl
@[simp] theorem State.raiseUnsupported_byte (s : State p) (w : Word) (a : Nat) : (s.raiseUnsupported w).byte a = s.byte a := rfl
@[simp] theorem State.raiseUnsupported_canonical (s : State p) (w : Word) : (s.raiseUnsupported w).canonical = s.canonical := rfl

@[simp] theorem State.beginStep_mem (s : State p) (rnd : Byte) : (s.beginStep rnd).mem = s.mem := rfl
@[simp] theorem State.beginStep_v (s : State p) (rnd : Byte) : (s.beginStep rnd).v = s.v := rfl
@[simp] theorem State.beginStep_i (s : State p) (rnd : Byte) : (s.beginStep rnd).i = s.i := rfl
@[simp] theorem State.beginStep_pc (s : State p) (rnd : Byte) : (s.beginStep rnd).pc = s.pc := rfl
@[simp] theorem State.beginStep_stack (s : State p) (rnd : Byte) : (s.beginStep rnd).stack = s.stack := rfl
@[simp] theorem State.beginStep_sp (s : State p) (rnd : Byte) : (s.beginStep rnd).sp = s.sp := rfl
@[simp] theorem State.beginStep_dt (s : State p) (rnd : Byte) : (s.beginStep rnd).dt = s.dt := rfl
@[simp] theorem State.beginStep_st (s : State p) (rnd : Byte) : (s.beginStep rnd).st = s.st := rfl
@[simp] theorem State.beginStep_fb (s : State p) (rnd : Byte) : (s.beginStep rnd).fb = s.fb := rfl
@[simp] theorem State.beginStep_latch (s : State p) (rnd : Byte) : (s.beginStep rnd).latch = s.latch := rfl
@[simp] theorem State.beginStep_keyWait (s : State p) (rnd : Byte) : (s.beginStep rnd).keyWait = s.keyWait := rfl
@[simp] theorem State.beginStep_drawReady (s : State p) (rnd : Byte) : (s.beginStep rnd).drawReady = s.drawReady := rfl
@[simp] theorem State.beginStep_rnd (s : State p) (rnd : Byte) : (s.beginStep rnd).rnd = rnd := rfl
@[simp] theorem State.beginStep_draws (s : State p) (rnd : Byte) : (s.beginStep rnd).draws = s.draws := rfl
@[simp] theorem State.beginStep_report (s : State p) (rnd : Byte) : (s.beginStep rnd).report = .ok := rfl
@[simp] theorem State.beginStep_reg (s : State p) (rnd : Byte) (r : RegIx) : (s.beginStep rnd).reg r = s.reg r := rfl
@[simp] theorem State.beginStep_byte (s : State p) (rnd : Byte) (a : Nat) : (s.beginStep rnd).byte a = s.byte a := rfl
@[simp] theorem State.beginStep_canonical (s : State p) (rnd : Byte) : (s.beginStep rnd).canonical = s.canonical := rfl

@[simp] theorem State.holdStep_mem (s : State p) : (s.holdStep).mem = s.mem := rfl
@[simp] theorem State.holdStep_v (s : State p) : (s.holdStep).v = s.v := rfl
@[simp] theorem State.holdStep_i (s : State p) : (s.holdStep).i = s.i := rfl
@[simp] theorem State.holdStep_pc (s : State p) : (s.holdStep).pc = s.pc := rfl
@[simp] theorem State.holdStep_stack (s : State p) : (s.holdStep).stack = s.stack := rfl
@[simp] theorem State.holdStep_sp (s : State p) : (s.holdStep).sp = s.sp := rfl
@[simp] theorem State.holdStep_dt (s : State p) : (s.holdStep).dt = s.dt := rfl
@[simp] theorem State.holdStep_st (s : State p) : (s.holdStep).st = s.st := rfl
@[simp] theorem State.holdStep_fb (s : State p) : (s.holdStep).fb = s.fb := rfl
@[simp] theorem State.holdStep_latch (s : State p) : (s.holdStep).latch = s.latch := rfl
@[simp] theorem State.holdStep_keyWait (s : State p) : (s.holdStep).keyWait = s.keyWait := rfl
@[simp] theorem State.holdStep_drawReady (s : State p) : (s.holdStep).drawReady = s.drawReady := rfl
@[simp] theorem State.holdStep_rnd (s : State p) : (s.holdStep).rnd = s.rnd := rfl
@[simp] theorem State.holdStep_draws (s : State p) : (s.holdStep).draws = s.draws := rfl
@[simp] theorem State.holdStep_report (s : State p) : (s.holdStep).report = .ok := rfl
@[simp] theorem State.holdStep_reg (s : State p) (r : RegIx) : (s.holdStep).reg r = s.reg r := rfl
@[simp] theorem State.holdStep_byte (s : State p) (a : Nat) : (s.holdStep).byte a = s.byte a := rfl
@[simp] theorem State.holdStep_canonical (s : State p) : (s.holdStep).canonical = s.canonical := rfl

@[simp] theorem State.countDraw_mem (s : State p) : (s.countDraw).mem = s.mem := rfl
@[simp] theorem State.countDraw_v (s : State p) : (s.countDraw).v = s.v := rfl
@[simp] theorem State.countDraw_i (s : State p) : (s.countDraw).i = s.i := rfl
@[simp] theorem State.countDraw_pc (s : State p) : (s.countDraw).pc = s.pc := rfl
@[simp] theorem State.countDraw_stack (s : State p) : (s.countDraw).stack = s.stack := rfl
@[simp] theorem State.countDraw_sp (s : State p) : (s.countDraw).sp = s.sp := rfl
@[simp] theorem State.countDraw_dt (s : State p) : (s.countDraw).dt = s.dt := rfl
@[simp] theorem State.countDraw_st (s : State p) : (s.countDraw).st = s.st := rfl
@[simp] theorem State.countDraw_fb (s : State p) : (s.countDraw).fb = s.fb := rfl
@[simp] theorem State.countDraw_latch (s : State p) : (s.countDraw).latch = s.latch := rfl
@[simp] theorem State.countDraw_keyWait (s : State p) : (s.countDraw).keyWait = s.keyWait := rfl
@[simp] theorem State.countDraw_drawReady (s : State p) : (s.countDraw).drawReady = s.drawReady := rfl
@[simp] theorem State.countDraw_rnd (s : State p) : (s.countDraw).rnd = s.rnd := rfl
@[simp] theorem State.countDraw_draws (s : State p) : (s.countDraw).draws = s.draws + 1 := rfl
@[simp] theorem State.countDraw_report (s : State p) : (s.countDraw).report = s.report := rfl
@[simp] theorem State.countDraw_reg (s : State p) (r : RegIx) : (s.countDraw).reg r = s.reg r := rfl
@[simp] theorem State.countDraw_byte (s : State p) (a : Nat) : (s.countDraw).byte a = s.byte a := rfl
@[simp] theorem State.countDraw_canonical (s : State p) : (s.countDraw).canonical = s.canonical := rfl

@[simp] theorem State.tick_mem (s : State p) : (s.tick).mem = s.mem := rfl
@[simp] theorem State.tick_v (s : State p) : (s.tick).v = s.v := rfl
@[simp] theorem State.tick_i (s : State p) : (s.tick).i = s.i := rfl
@[simp] theorem State.tick_pc (s : State p) : (s.tick).pc = s.pc := rfl
@[simp] theorem State.tick_stack (s : State p) : (s.tick).stack = s.stack := rfl
@[simp] theorem State.tick_sp (s : State p) : (s.tick).sp = s.sp := rfl
@[simp] theorem State.tick_dt (s : State p) : (s.tick).dt = tickTimer s.dt := rfl
@[simp] theorem State.tick_st (s : State p) : (s.tick).st = tickTimer s.st := rfl
@[simp] theorem State.tick_fb (s : State p) : (s.tick).fb = s.fb := rfl
@[simp] theorem State.tick_latch (s : State p) : (s.tick).latch = s.latch := rfl
@[simp] theorem State.tick_keyWait (s : State p) : (s.tick).keyWait = s.keyWait := rfl
@[simp] theorem State.tick_drawReady (s : State p) : (s.tick).drawReady = s.drawReady := rfl
@[simp] theorem State.tick_rnd (s : State p) : (s.tick).rnd = s.rnd := rfl
@[simp] theorem State.tick_draws (s : State p) : (s.tick).draws = s.draws := rfl
@[simp] theorem State.tick_report (s : State p) : (s.tick).report = s.report := rfl
@[simp] theorem State.tick_reg (s : State p) (r : RegIx) : (s.tick).reg r = s.reg r := rfl
@[simp] theorem State.tick_byte (s : State p) (a : Nat) : (s.tick).byte a = s.byte a := rfl
@[simp] theorem State.tick_canonical (s : State p) : (s.tick).canonical = s.canonical := rfl

@[simp] theorem State.keyDown_mem (s : State p) (k : Key) : (s.keyDown k).mem = s.mem := rfl
@[simp] theorem State.keyDown_v (s : State p) (k : Key) : (s.keyDown k).v = s.v := rfl
@[simp] theorem State.keyDown_i (s : State p) (k : Key) : (s.keyDown k).i = s.i := rfl
@[simp] theorem State.keyDown_pc (s : State p) (k : Key) : (s.keyDown k).pc = s.pc := rfl
@[simp] theorem State.keyDown_stack (s : State p) (k : Key) : (s.keyDown k).stack = s.stack := rfl
@[simp] theorem State.keyDown_sp (s : State p) (k : Key) : (s.keyDown k).sp = s.sp := rfl
@[simp] theorem State.keyDown_dt (s : State p) (k : Key) : (s.keyDown k).dt = s.dt := rfl
@[simp] theorem State.keyDown_st (s : State p) (k : Key) : (s.keyDown k).st = s.st := rfl
@[simp] theorem State.keyDown_fb (s : State p) (k : Key) : (s.keyDown k).fb = s.fb := rfl
@[simp] theorem State.keyDown_latch (s : State p) (k : Key) : (s.keyDown k).latch = some k := rfl
@[simp] theorem State.keyDown_keyWait (s : State p) (k : Key) : (s.keyDown k).keyWait = false := rfl
@[simp] theorem State.keyDown_drawReady (s : State p) (k : Key) : (s.keyDown k).drawReady = s.drawReady := rfl
@[simp] theorem State.keyDown_rnd (s : State p) (k : Key) : (s.keyDown k).rnd = s.rnd := rfl
@[simp] theorem State.keyDown_draws (s : State p) (k : Key) : (s.keyDown k).draws = s.draws := rfl
@[simp] theorem State.keyDown_report (s : State p) (k : Key) : (s.keyDown k).report = s.report := rfl
@[simp] theorem State.keyDown_reg (s : State p) (k : Key) (r : RegIx) : (s.keyDown k).reg r = s.reg r := rfl
@[simp] theorem State.keyDown_byte (s : State p) (k : Key) (a : Nat) : (s.keyDown k).byte a = s.byte a := rfl
@[simp] theorem State.keyDown_canonical (s : State p) (k : Key) : (s.keyDown k).canonical = s.canonical := rfl

@[simp] theorem State.keyUp_mem (s : State p) : (s.keyUp).mem = s.mem := rfl
@[simp] theorem State.keyUp_v (s : State p) : (s.keyUp).v = s.v := rfl
@[simp] theorem State.keyUp_i (s : State p) : (s.keyUp).i = s.i := rfl
@[simp] theorem State.keyUp_pc (s : State p) : (s.keyUp).pc = s.pc := rfl
@[simp] theorem State.keyUp_stack (s : State p) : (s.keyUp).stack = s.stack := rfl
@[simp] theorem State.keyUp_sp (s : State p) : (s.keyUp).sp = s.sp := rfl
@[simp] theorem State.keyUp_dt (s : State p) : (s.keyUp).dt = s.dt := rfl
@[simp] theorem State.keyUp_st (s : State p) : (s.keyUp).st = s.st := rfl
@[simp] theorem State.keyUp_fb (s : State p) : (s.keyUp).fb = s.fb := rfl
@[simp] theorem State.keyUp_latch (s : State p) : (s.keyUp).latch = none := rfl
@[simp] theorem State.keyUp_keyWait (s : State p) : (s.keyUp).keyWait = s.keyWait := rfl
@[simp] theorem State.keyUp_drawReady (s : State p) : (s.keyUp).drawReady = s.drawReady := rfl
@[simp] theorem State.keyUp_rnd (s : State p) : (s.keyUp).rnd = s.rnd := rfl
@[simp] theorem State.keyUp_draws (s : State p) : (s.keyUp).draws = s.draws := rfl
@[simp] theorem State.keyUp_report (s : State p) : (s.keyUp).report = s.report := rfl
@[simp] theorem State.keyUp_reg (s : State p) (r : RegIx) : (s.keyUp).reg r = s.reg r := rfl
@[simp] theorem State.keyUp_byte (s : State p) (a : Nat) : (s.keyUp).byte a = s.byte a := rfl
@[simp] theorem State.keyUp_canonical (s : State p) : (s.keyUp).canonical = s.canonical := rfl

@[simp] theorem State.frameConsumed_mem (s : State p) : (s.frameConsumed).mem = s.mem := rfl
@[simp] theorem State.frameConsumed_v (s : State p) : (s.frameConsumed).v = s.v := rfl
@[simp] theorem State.frameConsumed_i (s : State p) : (s.frameConsumed).i = s.i := rfl
@[simp] theorem State.frameConsumed_pc (s : State p) : (s.frameConsumed).pc = s.pc := rfl
@[simp] theorem State.frameConsumed_stack (s : State p) : (s.frameConsumed).stack = s.stack := rfl
@[simp] theorem State.frameConsumed_sp (s : State p) : (s.frameConsumed).sp = s.sp := rfl
@[simp] theorem State.frameConsumed_dt (s : State p) : (s.frameConsumed).dt = s.dt := rfl
@[simp] theorem State.frameConsumed_st (s : State p) : (s.frameConsumed).st = s.st := rfl
@[simp] theorem State.frameConsumed_fb (s : State p) : (s.frameConsumed).fb = s.fb := rfl
@[simp] theorem State.frameConsumed_latch (s : State p) : (s.frameConsumed).latch = s.latch := rfl
@[simp] theorem State.frameConsumed_keyWait (s : State p) : (s.frameConsumed).keyWait = s.keyWait := rfl
@[simp] theorem State.frameConsumed_drawReady (s : State p) : (s.frameConsumed).drawReady = false := rfl
@[simp] theorem State.frameConsumed_rnd (s : State p) : (s.frameConsumed).rnd = s.rnd := rfl
@[simp] theorem State.frameConsumed_draws (s : State p) : (s.frameConsumed).draws = s.draws := rfl
@[simp] theorem State.frameConsumed_report (s : State p) : (s.frameConsumed).report = s.report := rfl
@[simp] theorem State.frameConsumed_reg (s : State p) (r : RegIx) : (s.frameConsumed).reg r = s.reg r := rfl
@[simp] theorem State.frameConsumed_byte (s : State p) (a : Nat) : (s.frameConsumed).byte a = s.byte a := rfl
@[simp] theorem State.frameConsumed_canonical (s : State p) : (s.frameConsumed).canonical = s.canonical := rfl

@[simp] theorem State.loaded_mem (s : State p) (bs : List Byte) : (s.loaded bs).mem = s.mem.writeBytes p.font Config.entry.toNat bs := rfl
@[simp] theorem State.loaded_v (s : State p) (bs : List Byte) : (s.loaded bs).v = s.v := rfl
@[simp] theorem State.loaded_i (s : State p) (bs : List Byte) : (s.loaded bs).i = s.i := rfl
@[simp] theorem State.loaded_pc (s : State p) (bs : List Byte) : (s.loaded bs).pc = s.pc := rfl
@[simp] theorem State.loaded_stack (s : State p) (bs : List Byte) : (s.loaded bs).stack = s.stack := rfl
@[simp] theorem State.loaded_sp (s : State p) (bs : List Byte) : (s.loaded bs).sp = s.sp := rfl
@[simp] theorem State.loaded_dt (s : State p) (bs : List Byte) : (s.loaded bs).dt = s.dt := rfl
@[simp] theorem State.loaded_st (s : State p) (bs : List Byte) : (s.loaded bs).st = s.st := rfl
@[simp] theorem State.loaded_fb (s : State p) (bs : List Byte) : (s.loaded bs).fb = s.fb := rfl
@[simp] theorem State.loaded_latch (s : State p) (bs : List Byte) : (s.loaded bs).latch = s.latch := rfl
@[simp] theorem State.loaded_keyWait (s : State p) (bs : List Byte) : (s.loaded bs).keyWait = s.keyWait := rfl
@[simp] theorem State.loaded_drawReady (s : State p) (bs : List Byte) : (s.loaded bs).drawReady = s.drawReady := rfl
@[simp] theorem State.loaded_rnd (s : State p) (bs : List Byte) : (s.loaded bs).rnd = s.rnd := rfl
@[simp] theorem State.loaded_draws (s : State p) (bs : List Byte) : (s.loaded bs).draws = s.draws := rfl
@[simp] theorem State.loaded_report (s : State p) (bs : List Byte) : (s.loaded bs).report = s.report := rfl
@[simp] theorem State.loaded_reg (s : State p) (bs : List Byte) (r : RegIx) : (s.loaded bs).reg r = s.reg r := rfl

@[simp] theorem State.setMem_byte (s : State p) (m : Memory) (a : Nat) : (s.setMem m).byte a = m.byte p.font a := rfl
@[simp] theorem State.setMem_canonical (s : State p) (m : Memory) : (s.setMem m).canonical = m.wf p.font := rfl

theorem State.setReg_reg (s : State p) (x : RegIx) (b : Byte) (r : RegIx) :
    (s.setReg x b).reg r = if r = x then b else s.reg r := by
  simp only [State.reg, State.setReg, Fin.getElem_fin, Vector.getElem_set, Fin.ext_iff]
  by_cases h : x.val = r.val
  · simp [h]
  · simp [h, Ne.symm h]

@[simp] theorem State.setReg_reg_self (s : State p) (x : RegIx) (b : Byte) : (s.setReg x b).reg x = b := by
  simp [State.setReg_reg]

theorem State.setReg_reg_ne (s : State p) (x : RegIx) (b : Byte) {r : RegIx} (h : r ≠ x) :
    (s.setReg x b).reg r = s.reg r := by
  simp [State.setReg_reg, h]

@[simp] theorem State.setFlag_reg_flag (s : State p) (b : Bool) : (s.setFlag b).reg flagReg = flagByte b :=
  State.setReg_reg_self s flagReg (flagByte b)

theorem State.setFlag_reg_ne (s : State p) (b : Bool) {r : RegIx} (h : r ≠ flagReg) : (s.setFlag b).reg r = s.reg r :=
  State.setReg_reg_ne s flagReg (flagByte b) h

@[simp] theorem State.setResultAndFlag_reg_flag (s : State p) (x : RegIx) (r : Byte) (b : Bool) :
    (s.setResultAndFlag x r b).reg flagReg = flagByte b :=
  State.setFlag_reg_flag (s.setReg x r) b

/-- With `x` = 15 the result is lost; in every other case it is in `V[x]` (R62 (e)). -/
theorem State.setResultAndFlag_reg_result (s : State p) {x : RegIx} (h : x ≠ flagReg) (r : Byte) (b : Bool) :
    (s.setResultAndFlag x r b).reg x = r := by
  simp [State.setResultAndFlag, State.setFlag_reg_ne _ _ h]

theorem State.setResultAndFlag_reg_ne (s : State p) (x : RegIx) (r : Byte) (b : Bool) {q : RegIx} (hx : q ≠ x)
    (hf : q ≠ flagReg) : (s.setResultAndFlag x r b).reg q = s.reg q := by
  rw [State.setResultAndFlag, State.setFlag_reg_ne _ _ hf, State.setReg_reg_ne _ _ _ hx]

/-- `LD Vx, [I]`'s write: register `r` holds byte `r` of the list, or what it held where the list is shorter (R83). -/
theorem State.setRegs_reg (s : State p) (bs : List Byte) (r : RegIx) :
    (s.setRegs bs).reg r = (bs[r.val]?).getD (s.reg r) := by
  simp [State.reg, State.setRegs]

theorem State.byte_eq (s : State p) (a : Nat) : s.byte a = s.mem.byte p.font a := rfl

theorem State.canonical_eq (s : State p) : s.canonical = s.mem.wf p.font := rfl

theorem State.base_eq (s : State p) : s.base = s.i.toNat := rfl

theorem State.regsUpTo_length (s : State p) (x : RegIx) : (s.regsUpTo x).length = x.val + 1 := by
  simp only [State.regsUpTo, List.length_take, Vector.length_toList]
  omega

theorem State.regsUpTo_getElem? (s : State p) (x r : RegIx) (h : r.val ≤ x.val) : (s.regsUpTo x)[r.val]? = some (s.reg r) := by
  have hr : r.val < x.val + 1 := Nat.lt_succ_of_le h
  simp [State.regsUpTo, hr, State.reg]

theorem bcdDigits_length (b : Byte) : (bcdDigits b).length = 3 := rfl

@[simp] theorem runEvents_nil (s : State) : runEvents [] s = s := rfl

@[simp] theorem runEvents_cons (e : Event) (es : List Event) (s : State) :
    runEvents (e :: es) s = runEvents es (applyEvent e s).1 := rfl

@[simp] theorem runEventsUnder_nil (s : State p) : runEventsUnder [] s = s := rfl

@[simp] theorem runEventsUnder_cons (e : Event) (es : List Event) (s : State p) :
    runEventsUnder (e :: es) s = runEventsUnder es (applyEventUnder e s).1 := rfl

end Sys2Proof.Machine
end

