-- ==== Sys2Proof/Laws/Memory.lean ====
section
/-! SUPPORT. The laws of memory: a read after a write, every operation keeps the canonical form, and the spec lemma of each
checked access. -/

namespace Sys2Proof.Machine

variable {p : Params} {font : Font}

theorem Memory.wfFrom_of_le {lo lo' : Nat} {m : Memory} (h : Memory.wfFrom font lo m = true) (hle : lo' ≤ lo) :
    Memory.wfFrom font lo' m = true := by
  cases m with
  | nil => rfl
  | cons c m =>
    obtain ⟨a, b⟩ := c
    simp only [Memory.wfFrom, Bool.and_eq_true, decide_eq_true_eq] at h ⊢
    exact ⟨⟨⟨by omega, h.1.1.2⟩, h.1.2⟩, h.2⟩

/-- An address below every listed one reads as its reset contents. -/
theorem Memory.byte_of_lt {lo a : Nat} {m : Memory} (h : Memory.wfFrom font lo m = true) (ha : a < lo) :
    Memory.byte font m a = Memory.resetByte font a := by
  induction m generalizing lo with
  | nil => rfl
  | cons c m ih =>
    obtain ⟨a', b'⟩ := c
    simp only [Memory.wfFrom, Bool.and_eq_true, decide_eq_true_eq] at h
    rw [Memory.byte, if_neg (by omega)]
    exact ih h.2 (by omega)

theorem Memory.wfFrom_write {lo : Nat} {m : Memory} {a : Nat} (b : Byte) (h : Memory.wfFrom font lo m = true) (hlo : lo ≤ a)
    (ha : a < 4096) : Memory.wfFrom font lo (m.write font a b) = true := by
  induction m generalizing lo with
  | nil => by_cases hb : b = Memory.resetByte font a <;> simp [Memory.write, Memory.wfFrom, hb, hlo, ha]
  | cons c m ih =>
    obtain ⟨a', b'⟩ := c
    have h' := h
    simp only [Memory.wfFrom, Bool.and_eq_true, decide_eq_true_eq] at h'
    obtain ⟨⟨⟨h1, h2⟩, h3⟩, h4⟩ := h'
    rw [Memory.write]
    split
    · split
      · exact h
      · rename_i hlt hb
        simp only [Memory.wfFrom, Bool.and_eq_true, decide_eq_true_eq, bne_iff_ne]
        exact ⟨⟨⟨hlo, ha⟩, hb⟩, ⟨⟨⟨by omega, h2⟩, bne_iff_ne.mp h3⟩, h4⟩⟩
    · split
      · rename_i _ heq
        split
        · exact Memory.wfFrom_of_le h4 (by omega)
        · rename_i hb
          simp only [Memory.wfFrom, Bool.and_eq_true, decide_eq_true_eq, bne_iff_ne]
          exact ⟨⟨⟨hlo, ha⟩, hb⟩, heq ▸ h4⟩
      · simp only [Memory.wfFrom, Bool.and_eq_true, decide_eq_true_eq]
        exact ⟨⟨⟨h1, h2⟩, h3⟩, ih h4 (by omega)⟩

/-- A write inside memory keeps the canonical form. -/
theorem Memory.wf_write {m : Memory} {a : Nat} (b : Byte) (h : m.wf font = true) (ha : a < 4096) :
    (m.write font a b).wf font = true :=
  Memory.wfFrom_write b h (Nat.zero_le a) ha

theorem Memory.byte_write_from {lo : Nat} {m : Memory} (a : Nat) (b : Byte) (c : Nat) (h : Memory.wfFrom font lo m = true) :
    (m.write font a b).byte font c = if c = a then b else m.byte font c := by
  induction m generalizing lo with
  | nil =>
    by_cases hb : b = Memory.resetByte font a <;> by_cases hc : c = a <;> simp [Memory.write, Memory.byte, hb, hc]
  | cons d m ih =>
    obtain ⟨a', b'⟩ := d
    have h' := h
    simp only [Memory.wfFrom, Bool.and_eq_true, decide_eq_true_eq] at h'
    obtain ⟨_, h4⟩ := h'
    rw [Memory.write]
    split
    · rename_i hlt
      split
      · rename_i hb
        by_cases hc : c = a
        · have hne : ¬ a = a' := by omega
          rw [if_pos hc, hc, hb, Memory.byte, if_neg hne, Memory.byte_of_lt h4 (by omega)]
        · rw [if_neg hc]
      · rw [Memory.byte]
    · split
      · rename_i _ heq
        split
        · rename_i hb
          by_cases hc : c = a
          · rw [if_pos hc, hc, hb, Memory.byte_of_lt h4 (by omega)]
          · have hne : ¬ c = a' := by omega
            rw [if_neg hc, Memory.byte, if_neg hne]
        · by_cases hc : c = a
          · simp [Memory.byte, hc]
          · have hne : ¬ c = a' := by omega
            simp [Memory.byte, hc, hne]
      · by_cases hc : c = a'
        · have hne : ¬ a' = a := by omega
          simp [Memory.byte, hc, hne]
        · simp only [Memory.byte, if_neg hc]
          exact ih h4

/-- A read after a write: the byte written at its own address, the old byte everywhere else (R29, R35 (c)). -/
theorem Memory.byte_write {m : Memory} (h : m.wf font = true) (a : Nat) (b : Byte) (c : Nat) :
    (m.write font a b).byte font c = if c = a then b else m.byte font c :=
  Memory.byte_write_from a b c h

/-- Writing a list of bytes that ends inside memory keeps the canonical form. -/
theorem Memory.wf_writeBytes {m : Memory} {a : Nat} {bs : List Byte} (h : m.wf font = true)
    (ha : a + bs.length ≤ 4096) : (m.writeBytes font a bs).wf font = true := by
  induction bs generalizing m a with
  | nil => exact h
  | cons b bs ih =>
    simp only [List.length_cons] at ha
    exact ih (Memory.wf_write b h (by omega)) (by omega)

/-- A read after a list of bytes was written: byte `c - a` of the list inside it, the old byte outside. -/
theorem Memory.byte_writeBytes {m : Memory} {a : Nat} {bs : List Byte} (h : m.wf font = true)
    (ha : a + bs.length ≤ 4096) (c : Nat) :
    (m.writeBytes font a bs).byte font c = if a ≤ c then (bs[c - a]?).getD (m.byte font c) else m.byte font c := by
  induction bs generalizing m a with
  | nil => simp [Memory.writeBytes]
  | cons b bs ih =>
    simp only [List.length_cons] at ha
    rw [Memory.writeBytes, ih (Memory.wf_write b h (by omega)) (by omega), Memory.byte_write h]
    by_cases hc : c = a
    · have : ¬ a + 1 ≤ a := by omega
      simp [hc]
    · by_cases hle : a + 1 ≤ c
      · have e : c - a = (c - (a + 1)) + 1 := by omega
        have hle' : a ≤ c := by omega
        simp [hle, hle', hc, e]
      · have hle' : ¬ a ≤ c := by omega
        simp [hle, hle', hc]

theorem Memory.byte_writeBytes_outside {m : Memory} {a : Nat} {bs : List Byte} (h : m.wf font = true)
    (ha : a + bs.length ≤ 4096) {c : Nat} (hc : c < a ∨ a + bs.length ≤ c) :
    (m.writeBytes font a bs).byte font c = m.byte font c := by
  rw [Memory.byte_writeBytes h ha]
  split
  · rw [List.getElem?_eq_none (by omega), Option.getD_none]
  · rfl

theorem Memory.byte_writeBytes_inside {m : Memory} {a : Nat} {bs : List Byte} (h : m.wf font = true)
    (ha : a + bs.length ≤ 4096) {k : Nat} (hk : k < bs.length) :
    (m.writeBytes font a bs).byte font (a + k) = bs[k] := by
  rw [Memory.byte_writeBytes h ha, if_pos (by omega), Nat.add_sub_cancel_left, List.getElem?_eq_getElem hk,
    Option.getD_some]

/-! ## The checked accesses: everything each can answer, once -/

theorem checkRange_ok {a n : Nat} (h : n = 0 ∨ a + n ≤ 4096) : checkRange a n = .ok () := if_pos h

/-- An access that leaves memory reports the lowest address above 0xFFF it would touch (R91). -/
theorem checkRange_error {a n : Nat} (hn : n ≠ 0) (h : 4096 < a + n) :
    checkRange a n = .error (.addressError (max a 4096)) :=
  if_neg (by simp only [Config.memSize]; omega)

theorem checkRange_cases (a n : Nat) :
    (checkRange a n = .ok () ∧ (n = 0 ∨ a + n ≤ 4096)) ∨
      (checkRange a n = .error (.addressError (max a 4096)) ∧ n ≠ 0 ∧ 4096 < a + n) := by
  by_cases h : n = 0 ∨ a + n ≤ 4096
  · exact .inl ⟨checkRange_ok h, h⟩
  · exact .inr ⟨if_neg h, by omega, by omega⟩

theorem Memory.readBlock_ok (m : Memory) {a n : Nat} (h : n = 0 ∨ a + n ≤ 4096) :
    m.readBlock font a n = .ok ((List.range n).map fun k => m.byte font (a + k)) := by
  simp [Memory.readBlock, checkRange_ok h]

theorem Memory.readBlock_error (m : Memory) {a n : Nat} (hn : n ≠ 0) (h : 4096 < a + n) :
    m.readBlock font a n = .error (.addressError (max a 4096)) := by
  simp [Memory.readBlock, checkRange_error hn h]

theorem Memory.writeBlock_ok (m : Memory) {a : Nat} {bs : List Byte} (h : bs.length = 0 ∨ a + bs.length ≤ 4096) :
    m.writeBlock font a bs = .ok (m.writeBytes font a bs) := by
  simp [Memory.writeBlock, checkRange_ok h]

theorem Memory.writeBlock_error (m : Memory) {a : Nat} {bs : List Byte} (hn : bs.length ≠ 0)
    (h : 4096 < a + bs.length) :
    m.writeBlock font a bs = .error (.addressError (max a 4096)) := by
  simp [Memory.writeBlock, checkRange_error hn h]

/-- A checked store that completes keeps the canonical form. -/
theorem Memory.wf_writeBlock {m m' : Memory} {a : Nat} {bs : List Byte} (h : m.wf font = true)
    (hw : m.writeBlock font a bs = .ok m') : m'.wf font = true := by
  rcases checkRange_cases a bs.length with ⟨hc, hb⟩ | ⟨hc, _, _⟩
  · rw [Memory.writeBlock_ok m hb] at hw
    cases hw
    rcases hb with h0 | hb
    · rw [List.length_eq_zero_iff.mp h0]
      exact h
    · exact Memory.wf_writeBytes h hb
  · simp [Memory.writeBlock, hc] at hw

theorem Memory.fetchWord_ok (m : Memory) {a : Nat} (h : a + 2 ≤ 4096) :
    m.fetchWord font a = .ok (wordOfBytes (m.byte font a) (m.byte font (a + 1))) := by
  simp [Memory.fetchWord, checkRange_ok (.inr h)]

theorem Memory.fetchWord_error (m : Memory) {a : Nat} (h : 4096 < a + 2) :
    m.fetchWord font a = .error (.addressError (max a 4096)) := by
  simp [Memory.fetchWord, checkRange_error (by decide) h]

/-- Where a fetch completes, `pc` is at most 0xFFE (R30). -/
theorem Memory.fetchWord_le {m : Memory} {a : Nat} {w : Word} (h : m.fetchWord font a = .ok w) : a ≤ 0xFFE := by
  rcases checkRange_cases a 2 with ⟨_, hb⟩ | ⟨hc, _, _⟩
  · simp at hb
    omega
  · simp [Memory.fetchWord, hc] at h

/-- Everything a store at `I` can do (R33, R81, R82): all the bytes and the advance, or the error. -/
theorem State.storeAtIndex_cases (s : State p) {bs : List Byte} (hn : bs.length ≠ 0) :
    (s.base + bs.length ≤ 4096 ∧ s.storeAtIndex bs = .next (s.setMem (s.mem.writeBytes p.font s.base bs)).advance) ∨
      (4096 < s.base + bs.length ∧ s.storeAtIndex bs = .fault (.addressError (max s.base 4096))) := by
  by_cases h : s.base + bs.length ≤ 4096
  · exact .inl ⟨h, by simp [State.storeAtIndex, Memory.writeBlock_ok s.mem (.inr h)]⟩
  · have h' : 4096 < s.base + bs.length := by omega
    exact .inr ⟨h', by simp [State.storeAtIndex, Memory.writeBlock_error s.mem hn h']⟩

/-- Everything `LD Vx, [I]` can do (R83). -/
theorem execLdVxMem_cases (x : RegIx) (s : State p) :
    (s.base + (x.val + 1) ≤ 4096 ∧
        execLdVxMem x s = .next (s.setRegs ((List.range (x.val + 1)).map fun k => s.byte (s.base + k))).advance) ∨
      (4096 < s.base + (x.val + 1) ∧ execLdVxMem x s = .fault (.addressError (max s.base 4096))) := by
  by_cases h : s.base + (x.val + 1) ≤ 4096
  · exact .inl ⟨h, by simp [execLdVxMem, Memory.readBlock_ok s.mem (.inr h), State.byte_eq]⟩
  · have h' : 4096 < s.base + (x.val + 1) := by omega
    exact .inr ⟨h', by simp [execLdVxMem, Memory.readBlock_error s.mem (Nat.succ_ne_zero _) h']⟩

/-- The pixels and the collision flag of a `DRW` whose sprite is in memory (R85). -/
def State.drawn (edge : DrawEdge) (x y : RegIx) (n : Rows) (s : State p) : Framebuffer × Bool :=
  togglePixels (s.fb, false)
    (spritePixels edge (s.reg x) (s.reg y) 0 ((List.range n.val).map fun k => s.byte (s.base + k)))

/-- Everything `DRW` can do (R85). -/
theorem execDrwUnder_cases (edge : DrawEdge) (x y : RegIx) (n : Rows) (s : State p) :
    ((n.val = 0 ∨ s.base + n.val ≤ 4096) ∧ execDrwUnder edge x y n s =
        .next ((s.setFrame (s.drawn edge x y n).1).setFlag (s.drawn edge x y n).2).advance) ∨
      ((n.val ≠ 0 ∧ 4096 < s.base + n.val) ∧
        execDrwUnder edge x y n s = .fault (.addressError (max s.base 4096))) := by
  by_cases h : n.val = 0 ∨ s.base + n.val ≤ 4096
  · exact .inl ⟨h, by simp [execDrwUnder, Memory.readBlock_ok s.mem h, State.drawn, State.byte_eq]⟩
  · have hn : n.val ≠ 0 := fun e => h (.inl e)
    have h' : 4096 < s.base + n.val := by omega
    exact .inr ⟨⟨hn, h'⟩, by simp [execDrwUnder, Memory.readBlock_error s.mem hn h']⟩

/-- Storing a word for the fetch keeps the canonical form. -/
theorem State.wf_placeWord {s : State p} (w : Word) (h : s.canonical = true) : (s.placeWord w).canonical = true := by
  unfold State.placeWord
  dsimp only
  split
  · rename_i m hm
    exact Memory.wf_writeBlock h hm
  · exact h

/-- `Load` keeps the canonical form (R112). -/
theorem State.wf_loaded {s : State p} {bytes : List Byte} (h : s.canonical = true) (hb : bytes.length ≤ Config.romMax) :
    (s.loaded bytes).canonical = true :=
  Memory.wf_writeBytes h (by simp only [Config.romMax] at hb; simp; omega)

/-- Reset memory, with nothing listed, has the canonical form. -/
theorem State.wf_reset : State.reset.canonical = true := rfl

/-- The same at every value of the parameters. -/
theorem State.wf_resetUnder (p : Params) : (State.resetUnder p).canonical = true := rfl

end Sys2Proof.Machine
end

