-- ==== Sys2Proof/Laws/Display.lean ====
section
/-! SUPPORT. The laws of the framebuffer: a toggle changes one cell, and what the loop of `DRW` leaves in each cell. -/

namespace Sys2Proof.Machine

@[simp] theorem Framebuffer.lit_blank (p : Pixel) : Framebuffer.blank.lit p = false := by
  simp [Framebuffer.lit, Framebuffer.blank]

/-- A toggle flips its own pixel and no other (R85). -/
theorem Framebuffer.lit_toggle (fb : Framebuffer) (p q : Pixel) :
    (fb.toggle p).lit q = (fb.lit q ^^ decide (q = p)) := by
  obtain ⟨px, py⟩ := p
  obtain ⟨qx, qy⟩ := q
  simp only [Framebuffer.lit, Framebuffer.toggle, Prod.mk.injEq, Fin.getElem_fin, Vector.getElem_set, Fin.ext_iff]
  by_cases hy : py.val = qy.val
  · have hpx : px.val < 64 := px.isLt
    by_cases e : qx.val = px.val
    · simp [hy, e, hpx]
    · simp [hy, e]
  · simp [hy, Ne.symm hy]

/-- The loop of `DRW` over pixels no two of which are the same: each is flipped once, the rest keep their cells, and the
collision flag is 1 iff some pixel was lit before the loop (R86 (a), (b)). -/
theorem togglePixels_of_nodup (fb : Framebuffer) (coll : Bool) {ps : List Pixel} (h : ps.Nodup) :
    (∀ q, (togglePixels (fb, coll) ps).1.lit q = (fb.lit q ^^ decide (q ∈ ps))) ∧
      (togglePixels (fb, coll) ps).2 = (coll || ps.any fb.lit) := by
  induction ps generalizing fb coll with
  | nil => simp [togglePixels]
  | cons p ps ih =>
    obtain ⟨hp, hps⟩ := List.nodup_cons.mp h
    obtain ⟨h1, h2⟩ := ih (fb.toggle p) (coll || fb.lit p) hps
    refine ⟨fun q => ?_, ?_⟩
    · rw [togglePixels, h1, Framebuffer.lit_toggle]
      by_cases hq : q = p
      · subst hq
        simp [hp]
      · simp [hq]
    · rw [togglePixels, h2, List.any_cons, Bool.or_assoc]
      congr 2
      rw [Bool.eq_iff_iff, List.any_eq_true, List.any_eq_true]
      refine exists_congr fun q => and_congr_right fun hq => ?_
      have hne : q ≠ p := fun e => hp (e ▸ hq)
      simp [Framebuffer.lit_toggle, hne]

/-- The pixels of one row of a sprite: those of its set bits that the edge policy does not skip (R85). -/
theorem mem_rowPixels {edge : DrawEdge} {x0 y0 : Byte} {r : Nat} {b : Byte} {p : Pixel} :
    p ∈ rowPixels edge x0 y0 r b ↔ ∃ c < 8, b.getLsbD (7 - c) = true ∧ targetPixel edge x0 y0 r c = some p := by
  simp only [rowPixels, List.mem_filterMap, List.mem_range]
  refine exists_congr fun c => and_congr_right fun _ => ?_
  by_cases hb : b.getLsbD (7 - c) = true
  · simp [hb]
  · simp [hb]

/-- The pixels of a sprite: those of the set bits of each row (R85). -/
theorem mem_spritePixels {edge : DrawEdge} {x0 y0 : Byte} {r0 : Nat} {bs : List Byte} {p : Pixel} :
    p ∈ spritePixels edge x0 y0 r0 bs ↔
      ∃ k, ∃ h : k < bs.length, p ∈ rowPixels edge x0 y0 (r0 + k) bs[k] := by
  induction bs generalizing r0 with
  | nil => simp [spritePixels]
  | cons b bs ih =>
    rw [spritePixels, List.mem_append, ih]
    constructor
    · rintro (h | ⟨k, hk, h⟩)
      · exact ⟨0, by simp, by simpa using h⟩
      · exact ⟨k + 1, by simpa using hk, by simpa [Nat.add_assoc, Nat.add_comm 1 k] using h⟩
    · rintro ⟨k, hk, h⟩
      cases k with
      | zero => exact .inl (by simpa using h)
      | succ k => exact .inr ⟨k, by simpa using hk, by simpa [Nat.add_assoc, Nat.add_comm 1 k] using h⟩

end Sys2Proof.Machine
end

