-- ==== Sys2Proof/Laws/Numerals.lean ====
section
/-! SUPPORT. The opcode table at the numerals of this hardware: what its rows select, and that the decoder and the encoder with
the numerals as an argument are there the decoder of R45 and its encoder. -/

namespace Sys2Proof

/-! ## A word under the masks of the table, as numbers -/

theorem and_F000_toNat (w : Word) : (w &&& 0xF000#16).toNat = w.toNat / 4096 * 4096 := by
  have h : w &&& 0xF000#16 = (w >>> 12) <<< 12 := by
    apply BitVec.eq_of_getLsbD_eq
    intro i hi
    interval_cases i <;> simp
  rw [h]
  simp [Nat.shiftRight_eq_div_pow, Nat.shiftLeft_eq]
  omega

theorem and_low_toNat (w : Word) {k : Nat} (hk : k ≤ 16) : (w &&& BitVec.ofNat 16 (2 ^ k - 1)).toNat = w.toNat % 2 ^ k := by
  have : 2 ^ k ≤ 2 ^ 16 := Nat.pow_le_pow_right (by decide) hk
  rw [BitVec.toNat_and, BitVec.toNat_ofNat, Nat.mod_eq_of_lt (by omega), Nat.and_two_pow_sub_one_eq_mod]

theorem and_split_toNat (w : Word) {k : Nat} (hk : k ≤ 12) :
    (w &&& (0xF000#16 ||| BitVec.ofNat 16 (2 ^ k - 1))).toNat = w.toNat / 4096 * 4096 + w.toNat % 2 ^ k := by
  have h : w &&& (0xF000#16 ||| BitVec.ofNat 16 (2 ^ k - 1)) = (w &&& 0xF000#16) ||| (w &&& BitVec.ofNat 16 (2 ^ k - 1)) := by
    apply BitVec.eq_of_getLsbD_eq
    intro i hi
    simp only [BitVec.getLsbD_and, BitVec.getLsbD_or, Bool.and_or_distrib_left]
  have hlt : w.toNat % 2 ^ k < 2 ^ 12 :=
    Nat.lt_of_lt_of_le (Nat.mod_lt _ (by positivity)) (Nat.pow_le_pow_right (by decide) hk)
  rw [h, BitVec.toNat_or, and_F000_toNat, and_low_toNat w (by omega)]
  have := Nat.shiftLeft_add_eq_or_of_lt hlt (w.toNat / 4096)
  rw [Nat.shiftLeft_eq] at this
  exact this.symm

/-! ## What a row selects, for each of the four masks -/

/-- A row selects on the class alone. -/
theorem selects_class {v : Word} (hv : v.toNat / 4096 * 4096 = v.toNat) (w : Word) :
    OpcodeRow.selects ⟨0xF000#16, v⟩ w = decide (w.toNat / 4096 = v.toNat / 4096) := by
  rw [OpcodeRow.selects, Bool.eq_iff_iff, beq_iff_eq, decide_eq_true_eq, ← BitVec.toNat_inj, and_F000_toNat]
  dsimp only
  omega

/-- A row selects on the class and the low nibble. -/
theorem selects_classN {v : Word} (hv : v.toNat / 4096 * 4096 + v.toNat % 16 = v.toNat) (w : Word) :
    OpcodeRow.selects ⟨0xF00F#16, v⟩ w = decide (w.toNat / 4096 = v.toNat / 4096 ∧ w.toNat % 16 = v.toNat % 16) := by
  have h : (w &&& 0xF00F#16).toNat = w.toNat / 4096 * 4096 + w.toNat % 16 := and_split_toNat w (k := 4) (by decide)
  rw [OpcodeRow.selects, Bool.eq_iff_iff, beq_iff_eq, decide_eq_true_eq, ← BitVec.toNat_inj, h]
  dsimp only
  omega

/-- A row selects on the class and the low byte. -/
theorem selects_classNN {v : Word} (hv : v.toNat / 4096 * 4096 + v.toNat % 256 = v.toNat) (w : Word) :
    OpcodeRow.selects ⟨0xF0FF#16, v⟩ w = decide (w.toNat / 4096 = v.toNat / 4096 ∧ w.toNat % 256 = v.toNat % 256) := by
  have h : (w &&& 0xF0FF#16).toNat = w.toNat / 4096 * 4096 + w.toNat % 256 := and_split_toNat w (k := 8) (by decide)
  rw [OpcodeRow.selects, Bool.eq_iff_iff, beq_iff_eq, decide_eq_true_eq, ← BitVec.toNat_inj, h]
  dsimp only
  omega

/-- A row selects on the whole word. -/
theorem selects_word (v w : Word) : OpcodeRow.selects ⟨0xFFFF#16, v⟩ w = decide (w.toNat = v.toNat) := by
  have h : (w &&& 0xFFFF#16).toNat = w.toNat % 65536 := and_low_toNat w (k := 16) (by decide)
  rw [OpcodeRow.selects, Bool.eq_iff_iff, beq_iff_eq, decide_eq_true_eq, ← BitVec.toNat_inj, h, Nat.mod_eq_of_lt w.isLt]

/-! ## The table row by row -/

theorem numerals_get_low :
    Config.numerals.get 0 = ⟨0xF000#16, 0x0000#16⟩ ∧ Config.numerals.get 1 = ⟨0xFFFF#16, 0x00E0#16⟩ ∧
    Config.numerals.get 2 = ⟨0xFFFF#16, 0x00EE#16⟩ ∧ Config.numerals.get 3 = ⟨0xF000#16, 0x1000#16⟩ ∧
    Config.numerals.get 4 = ⟨0xF000#16, 0x2000#16⟩ ∧ Config.numerals.get 5 = ⟨0xF000#16, 0x3000#16⟩ ∧
    Config.numerals.get 6 = ⟨0xF000#16, 0x4000#16⟩ ∧ Config.numerals.get 7 = ⟨0xF00F#16, 0x5000#16⟩ ∧
    Config.numerals.get 8 = ⟨0xF000#16, 0x6000#16⟩ ∧ Config.numerals.get 9 = ⟨0xF000#16, 0x7000#16⟩ ∧
    Config.numerals.get 10 = ⟨0xF00F#16, 0x8000#16⟩ ∧ Config.numerals.get 11 = ⟨0xF00F#16, 0x8001#16⟩ ∧
    Config.numerals.get 12 = ⟨0xF00F#16, 0x8002#16⟩ ∧ Config.numerals.get 13 = ⟨0xF00F#16, 0x8003#16⟩ ∧
    Config.numerals.get 14 = ⟨0xF00F#16, 0x8004#16⟩ ∧ Config.numerals.get 15 = ⟨0xF00F#16, 0x8005#16⟩ ∧
    Config.numerals.get 16 = ⟨0xF00F#16, 0x8006#16⟩ ∧ Config.numerals.get 17 = ⟨0xF00F#16, 0x8007#16⟩ ∧
    Config.numerals.get 18 = ⟨0xF00F#16, 0x800E#16⟩ ∧ Config.numerals.get 19 = ⟨0xF00F#16, 0x9000#16⟩ := by
  decide

theorem numerals_get_high :
    Config.numerals.get 20 = ⟨0xF000#16, 0xA000#16⟩ ∧ Config.numerals.get 21 = ⟨0xF000#16, 0xB000#16⟩ ∧
    Config.numerals.get 22 = ⟨0xF000#16, 0xC000#16⟩ ∧ Config.numerals.get 23 = ⟨0xF000#16, 0xD000#16⟩ ∧
    Config.numerals.get 24 = ⟨0xF0FF#16, 0xE09E#16⟩ ∧ Config.numerals.get 25 = ⟨0xF0FF#16, 0xE0A1#16⟩ ∧
    Config.numerals.get 26 = ⟨0xF0FF#16, 0xF007#16⟩ ∧ Config.numerals.get 27 = ⟨0xF0FF#16, 0xF00A#16⟩ ∧
    Config.numerals.get 28 = ⟨0xF0FF#16, 0xF015#16⟩ ∧ Config.numerals.get 29 = ⟨0xF0FF#16, 0xF018#16⟩ ∧
    Config.numerals.get 30 = ⟨0xF0FF#16, 0xF01E#16⟩ ∧ Config.numerals.get 31 = ⟨0xF0FF#16, 0xF029#16⟩ ∧
    Config.numerals.get 32 = ⟨0xF0FF#16, 0xF033#16⟩ ∧ Config.numerals.get 33 = ⟨0xF0FF#16, 0xF055#16⟩ ∧
    Config.numerals.get 34 = ⟨0xF0FF#16, 0xF065#16⟩ := by
  decide

/-- What rows 1 to 20 select (R44). -/
theorem rows_select_low (w : Word) :
    (Config.numerals.get 0).selects w = decide (w.toNat / 4096 = 0x0) ∧
    (Config.numerals.get 1).selects w = decide (w.toNat = 0xE0) ∧
    (Config.numerals.get 2).selects w = decide (w.toNat = 0xEE) ∧
    (Config.numerals.get 3).selects w = decide (w.toNat / 4096 = 0x1) ∧
    (Config.numerals.get 4).selects w = decide (w.toNat / 4096 = 0x2) ∧
    (Config.numerals.get 5).selects w = decide (w.toNat / 4096 = 0x3) ∧
    (Config.numerals.get 6).selects w = decide (w.toNat / 4096 = 0x4) ∧
    (Config.numerals.get 7).selects w = decide (w.toNat / 4096 = 0x5 ∧ w.toNat % 16 = 0x0) ∧
    (Config.numerals.get 8).selects w = decide (w.toNat / 4096 = 0x6) ∧
    (Config.numerals.get 9).selects w = decide (w.toNat / 4096 = 0x7) ∧
    (Config.numerals.get 10).selects w = decide (w.toNat / 4096 = 0x8 ∧ w.toNat % 16 = 0x0) ∧
    (Config.numerals.get 11).selects w = decide (w.toNat / 4096 = 0x8 ∧ w.toNat % 16 = 0x1) ∧
    (Config.numerals.get 12).selects w = decide (w.toNat / 4096 = 0x8 ∧ w.toNat % 16 = 0x2) ∧
    (Config.numerals.get 13).selects w = decide (w.toNat / 4096 = 0x8 ∧ w.toNat % 16 = 0x3) ∧
    (Config.numerals.get 14).selects w = decide (w.toNat / 4096 = 0x8 ∧ w.toNat % 16 = 0x4) ∧
    (Config.numerals.get 15).selects w = decide (w.toNat / 4096 = 0x8 ∧ w.toNat % 16 = 0x5) ∧
    (Config.numerals.get 16).selects w = decide (w.toNat / 4096 = 0x8 ∧ w.toNat % 16 = 0x6) ∧
    (Config.numerals.get 17).selects w = decide (w.toNat / 4096 = 0x8 ∧ w.toNat % 16 = 0x7) ∧
    (Config.numerals.get 18).selects w = decide (w.toNat / 4096 = 0x8 ∧ w.toNat % 16 = 0xE) ∧
    (Config.numerals.get 19).selects w = decide (w.toNat / 4096 = 0x9 ∧ w.toNat % 16 = 0x0) := by
  simp (disch := decide) only [numerals_get_low, selects_class, selects_classN, selects_word]
  exact ⟨rfl, rfl, rfl, rfl, rfl, rfl, rfl, rfl, rfl, rfl, rfl, rfl, rfl, rfl, rfl, rfl, rfl, rfl, rfl, rfl⟩

/-- What rows 21 to 35 select (R44). -/
theorem rows_select_high (w : Word) :
    (Config.numerals.get 20).selects w = decide (w.toNat / 4096 = 0xA) ∧
    (Config.numerals.get 21).selects w = decide (w.toNat / 4096 = 0xB) ∧
    (Config.numerals.get 22).selects w = decide (w.toNat / 4096 = 0xC) ∧
    (Config.numerals.get 23).selects w = decide (w.toNat / 4096 = 0xD) ∧
    (Config.numerals.get 24).selects w = decide (w.toNat / 4096 = 0xE ∧ w.toNat % 256 = 0x9E) ∧
    (Config.numerals.get 25).selects w = decide (w.toNat / 4096 = 0xE ∧ w.toNat % 256 = 0xA1) ∧
    (Config.numerals.get 26).selects w = decide (w.toNat / 4096 = 0xF ∧ w.toNat % 256 = 0x07) ∧
    (Config.numerals.get 27).selects w = decide (w.toNat / 4096 = 0xF ∧ w.toNat % 256 = 0x0A) ∧
    (Config.numerals.get 28).selects w = decide (w.toNat / 4096 = 0xF ∧ w.toNat % 256 = 0x15) ∧
    (Config.numerals.get 29).selects w = decide (w.toNat / 4096 = 0xF ∧ w.toNat % 256 = 0x18) ∧
    (Config.numerals.get 30).selects w = decide (w.toNat / 4096 = 0xF ∧ w.toNat % 256 = 0x1E) ∧
    (Config.numerals.get 31).selects w = decide (w.toNat / 4096 = 0xF ∧ w.toNat % 256 = 0x29) ∧
    (Config.numerals.get 32).selects w = decide (w.toNat / 4096 = 0xF ∧ w.toNat % 256 = 0x33) ∧
    (Config.numerals.get 33).selects w = decide (w.toNat / 4096 = 0xF ∧ w.toNat % 256 = 0x55) ∧
    (Config.numerals.get 34).selects w = decide (w.toNat / 4096 = 0xF ∧ w.toNat % 256 = 0x65) := by
  simp (disch := decide) only [numerals_get_high, selects_class, selects_classNN]
  exact ⟨rfl, rfl, rfl, rfl, rfl, rfl, rfl, rfl, rfl, rfl, rfl, rfl, rfl, rfl, rfl⟩

/-- Selection as a fold over the thirty-five rows, written out. -/
theorem select_eq (t : Numerals) (w : Word) : t.select w =
    ([0, 1, 2, 3, 4, 5, 6, 7, 8, 9, 10, 11, 12, 13, 14, 15, 16, 17] ++
      [18, 19, 20, 21, 22, 23, 24, 25, 26, 27, 28, 29, 30, 31, 32, 33, 34] : List (Fin 35)).foldl
        (fun best k => if (t.get k).selects w then t.better best k else best) none := by
  rw [Numerals.select]
  congr 1

theorem better_none (t : Numerals) (k : Fin 35) : t.better none k = some k := rfl

/-- A word of `CLS` selects `SYS` too, and a larger mask wins (R44). -/
theorem better_cls : Config.numerals.better (some 0) 1 = some 1 := by decide

/-- A word of `RET` selects `SYS` too, and a larger mask wins (R44). -/
theorem better_ret : Config.numerals.better (some 0) 2 = some 2 := by decide

/-! ## Selection by the table is the procedure of R45, class by class -/

/-- Class 0: the words of `CLS` and `RET` select two rows, and the larger mask wins. -/
theorem decodeUnder_class0 {w : Word} (hc : w.toNat / 4096 = 0) : decodeUnder Config.numerals w = (decode w).toOption := by
  have hcl : (fieldClass w).toNat = 0 := by rw [fieldClass_toNat, hc]
  have fW : ∀ v : Word, w = v ↔ w.toNat = v.toNat := fun v => by rw [← BitVec.toNat_inj]
  have : w.toNat = 0xE0 ∨ w.toNat = 0xEE ∨ (w.toNat ≠ 0xE0 ∧ w.toNat ≠ 0xEE) := by omega
  rcases this with h | h | ⟨h, h'⟩ <;>
    simp [decodeUnder, select_eq, rows_select_low, rows_select_high, better_none, better_cls, better_ret, Instr.ofRow, decode,
      decodeClass0, Except.toOption, *]

/-- The ten classes of which every word is the one instruction. -/
theorem decodeUnder_class {w : Word}
    (hc : w.toNat / 4096 ∈ [0x1, 0x2, 0x3, 0x4, 0x6, 0x7, 0xA, 0xB, 0xC, 0xD]) :
    decodeUnder Config.numerals w = (decode w).toOption := by
  have hW : ∀ k, k < 4096 → w.toNat ≠ k := by rintro k hk rfl; simp [Nat.div_eq_of_lt hk] at hc
  simp only [List.mem_cons, List.not_mem_nil, or_false] at hc
  rcases hc with h | h | h | h | h | h | h | h | h | h <;>
    simp [decodeUnder, select_eq, rows_select_low, rows_select_high, hW, h, better_none, Instr.ofRow, decode, fieldClass_toNat,
      Except.toOption]

/-- Classes 5 and 9: only the low nibble 0 selects. -/
theorem decodeUnder_class5_9 {w : Word} (hc : w.toNat / 4096 = 5 ∨ w.toNat / 4096 = 9) :
    decodeUnder Config.numerals w = (decode w).toOption := by
  have hW : ∀ k, k < 4096 → w.toNat ≠ k := by rintro k hk rfl; simp [Nat.div_eq_of_lt hk] at hc
  have fN : fieldN w = 0 ↔ w.toNat % 16 = 0 := by rw [Fin.ext_iff, fieldN_val]; rfl
  rcases hc with h | h <;> by_cases hn : w.toNat % 16 = 0 <;>
    simp [decodeUnder, select_eq, rows_select_low, rows_select_high, hW, h, hn, fN, better_none, Instr.ofRow, decode,
      fieldClass_toNat, Except.toOption]

/-- Class 8: the low nibble selects. -/
theorem decodeUnder_class8 {w : Word} (hc : w.toNat / 4096 = 8) : decodeUnder Config.numerals w = (decode w).toOption := by
  have hW : ∀ k, k < 4096 → w.toNat ≠ k := by rintro k hk rfl; simp [Nat.div_eq_of_lt hk] at hc
  have hN : w.toNat % 16 < 16 := Nat.mod_lt _ (by decide)
  have vN := fieldN_val w
  generalize hn : w.toNat % 16 = n at hN vN
  interval_cases n <;>
    simp [decodeUnder, select_eq, rows_select_low, rows_select_high, hW, hc, hn, vN, better_none, Instr.ofRow, decode,
      fieldClass_toNat, decodeClass8, Except.toOption]

/-- Class E: the low byte selects. -/
theorem decodeUnder_classE {w : Word} (hc : w.toNat / 4096 = 0xE) : decodeUnder Config.numerals w = (decode w).toOption := by
  have hW : ∀ k, k < 4096 → w.toNat ≠ k := by rintro k hk rfl; simp [Nat.div_eq_of_lt hk] at hc
  have fNN : ∀ b : Byte, fieldNN w = b ↔ w.toNat % 256 = b.toNat := fun b => by rw [← BitVec.toNat_inj, fieldNN_toNat]
  rcases em (w.toNat % 256 ∈ [0x9E, 0xA1]) with h | h <;>
    simp only [List.mem_cons, List.not_mem_nil, or_false, not_or] at h
  · rcases h with h | h <;>
      simp [decodeUnder, select_eq, rows_select_low, rows_select_high, hW, hc, h, fNN, better_none, Instr.ofRow, decode,
        fieldClass_toNat, decodeClassE, Except.toOption]
  · simp [decodeUnder, select_eq, rows_select_low, rows_select_high, hW, hc, h, fNN, decode, fieldClass_toNat, decodeClassE,
      Except.toOption]

/-- Class F: the low byte selects. -/
theorem decodeUnder_classF {w : Word} (hc : w.toNat / 4096 = 0xF) : decodeUnder Config.numerals w = (decode w).toOption := by
  have hW : ∀ k, k < 4096 → w.toNat ≠ k := by rintro k hk rfl; simp [Nat.div_eq_of_lt hk] at hc
  have fNN : ∀ b : Byte, fieldNN w = b ↔ w.toNat % 256 = b.toNat := fun b => by rw [← BitVec.toNat_inj, fieldNN_toNat]
  rcases em (w.toNat % 256 ∈ [0x07, 0x0A, 0x15, 0x18, 0x1E, 0x29, 0x33, 0x55, 0x65]) with h | h <;>
    simp only [List.mem_cons, List.not_mem_nil, or_false, not_or] at h
  · rcases h with h | h | h | h | h | h | h | h | h <;>
      simp [decodeUnder, select_eq, rows_select_low, rows_select_high, hW, hc, h, fNN, better_none, Instr.ofRow, decode,
        fieldClass_toNat, decodeClassF, Except.toOption]
  · simp [decodeUnder, select_eq, rows_select_low, rows_select_high, hW, hc, h, fNN, decode, fieldClass_toNat, decodeClassF,
      Except.toOption]

/-- The decoder with the numerals as an argument is, at the numerals of this hardware, the decoder of R45. -/
theorem decodeUnder_numerals (w : Word) : decodeUnder Config.numerals w = (decode w).toOption := by
  have hlt : w.toNat / 4096 < 16 := by have := w.isLt; omega
  generalize hc : w.toNat / 4096 = c at hlt
  interval_cases c
  all_goals first
    | exact decodeUnder_class (by rw [hc]; decide)
    | exact decodeUnder_class0 hc
    | exact decodeUnder_class5_9 (.inl hc)
    | exact decodeUnder_class8 hc
    | exact decodeUnder_class5_9 (.inr hc)
    | exact decodeUnder_classE hc
    | exact decodeUnder_classF hc

/-! ## The encoder -/

/-- Match and operand bits do not overlap: their union is their sum. -/
theorem or_operands {v op : Nat} (m : Nat) (hv : v % 4096 < 2 ^ m) (hop : op < 4096) (hm : op % 2 ^ m = 0) :
    v ||| op = v + op := by
  have h1 := Nat.shiftLeft_add_eq_or_of_lt (i := 12) (b := v % 4096) (Nat.mod_lt _ (by decide)) (v / 4096)
  have h2 := Nat.shiftLeft_add_eq_or_of_lt hv (op / 2 ^ m)
  have h3 : op / 2 ^ m * 2 ^ m + v % 4096 < 2 ^ 12 := by
    have h4 := Nat.or_lt_two_pow (x := op) (y := v % 4096) (n := 12) hop (Nat.mod_lt _ (by decide))
    rw [Nat.shiftLeft_eq, Nat.div_mul_cancel (Nat.dvd_of_mod_eq_zero hm)] at h2
    rw [Nat.div_mul_cancel (Nat.dvd_of_mod_eq_zero hm), h2]
    exact h4
  have h4 := Nat.shiftLeft_add_eq_or_of_lt h3 (v / 4096)
  rw [Nat.shiftLeft_eq] at h1 h2 h4
  rw [Nat.div_mul_cancel (Nat.dvd_of_mod_eq_zero hm)] at h2 h3 h4
  have e : v = v / 4096 * 4096 + v % 4096 := by omega
  calc v ||| op = v / 4096 * 2 ^ 12 ||| v % 4096 ||| op := by rw [← h1]; exact congrArg (· ||| op) e
    _ = v / 4096 * 2 ^ 12 ||| (op + v % 4096) := by rw [Nat.lor_assoc, Nat.lor_comm (v % 4096), h2]
    _ = v + op := by rw [← h4]; omega

/-- The encoder with the numerals as an argument is, at the numerals of this hardware, the encoder of R44. -/
theorem encodeUnder_numerals (i : Instr) : encodeUnder Config.numerals i = encode i := by
  apply BitVec.eq_of_toNat_eq
  rw [encodeUnder, BitVec.toNat_or]
  cases i
  case cls | ret => rfl
  case sys nnn | jp nnn | call nnn | ldI nnn | jpV0 nnn =>
    simp only [Instr.rowIndex, Instr.operandBits, numerals_get_low, numerals_get_high, encode, encodeNNN_toNat]
    rw [or_operands 0 (by decide) (by have := nnn.isLt; simp; omega) (by omega)]
    simp
  case seByte x nn | sneByte x nn | ldByte x nn | addByte x nn | rnd x nn =>
    simp only [Instr.rowIndex, Instr.operandBits, numerals_get_low, numerals_get_high, encode, encodeXNN_toNat]
    rw [or_operands 0 (by decide) (by simp; omega) (by omega)]
    simp
  case drw x y n =>
    simp only [Instr.rowIndex, Instr.operandBits, numerals_get_high, encode, encodeXYN_toNat]
    rw [or_operands 0 (by decide) (by simp; omega) (by omega)]
    simp
  case skp x | sknp x | ldVxDt x | ldVxK x | ldDtVx x | ldStVx x | addI x | ldF x | ldB x | ldMemVx x | ldVxMem x =>
    simp only [Instr.rowIndex, Instr.operandBits, numerals_get_high, encode, encodeXNN_toNat]
    rw [or_operands 8 (by decide) (by simp; omega) (by simp)]
    simp
    try omega
  all_goals
    simp only [Instr.rowIndex, Instr.operandBits, numerals_get_low, encode, encodeXYN_toNat]
    rw [or_operands 4 (by decide) (by simp; omega) (by simp; omega)]
    simp
    try omega

end Sys2Proof
end

