-- ==== Sys2Proof/Laws/PerInstr.lean ====
section
/-! SUPPORT. Laws stated of every instruction, one lemma per constructor. -/

namespace Sys2Proof.Laws

/-- The class nibble of an instruction's word is that of its row's match column (R41, R44). -/
def EncodedClass.Statement (i : Instr) : Prop := fieldClass (encode i) = fieldClass i.row.value

theorem EncodedClass.sys (nnn : Addr12) : EncodedClass.Statement (.sys nnn) := by
  rw [EncodedClass.Statement, encode, fieldClass_encodeNNN]
  simp only [Instr.row, Instr.rowIndex]
  decide
theorem EncodedClass.cls : EncodedClass.Statement .cls := rfl
theorem EncodedClass.ret : EncodedClass.Statement .ret := rfl
theorem EncodedClass.jp (nnn : Addr12) : EncodedClass.Statement (.jp nnn) := by
  rw [EncodedClass.Statement, encode, fieldClass_encodeNNN]
  simp only [Instr.row, Instr.rowIndex]
  decide
theorem EncodedClass.call (nnn : Addr12) : EncodedClass.Statement (.call nnn) := by
  rw [EncodedClass.Statement, encode, fieldClass_encodeNNN]
  simp only [Instr.row, Instr.rowIndex]
  decide
theorem EncodedClass.seByte (x : RegIx) (nn : Byte) : EncodedClass.Statement (.seByte x nn) := by
  rw [EncodedClass.Statement, encode, fieldClass_encodeXNN]
  simp only [Instr.row, Instr.rowIndex]
  decide
theorem EncodedClass.sneByte (x : RegIx) (nn : Byte) : EncodedClass.Statement (.sneByte x nn) := by
  rw [EncodedClass.Statement, encode, fieldClass_encodeXNN]
  simp only [Instr.row, Instr.rowIndex]
  decide
theorem EncodedClass.seReg (x y : RegIx) : EncodedClass.Statement (.seReg x y) := by
  rw [EncodedClass.Statement, encode, fieldClass_encodeXYN]
  simp only [Instr.row, Instr.rowIndex]
  decide
theorem EncodedClass.ldByte (x : RegIx) (nn : Byte) : EncodedClass.Statement (.ldByte x nn) := by
  rw [EncodedClass.Statement, encode, fieldClass_encodeXNN]
  simp only [Instr.row, Instr.rowIndex]
  decide
theorem EncodedClass.addByte (x : RegIx) (nn : Byte) : EncodedClass.Statement (.addByte x nn) := by
  rw [EncodedClass.Statement, encode, fieldClass_encodeXNN]
  simp only [Instr.row, Instr.rowIndex]
  decide
theorem EncodedClass.ldReg (x y : RegIx) : EncodedClass.Statement (.ldReg x y) := by
  rw [EncodedClass.Statement, encode, fieldClass_encodeXYN]
  simp only [Instr.row, Instr.rowIndex]
  decide
theorem EncodedClass.orReg (x y : RegIx) : EncodedClass.Statement (.orReg x y) := by
  rw [EncodedClass.Statement, encode, fieldClass_encodeXYN]
  simp only [Instr.row, Instr.rowIndex]
  decide
theorem EncodedClass.andReg (x y : RegIx) : EncodedClass.Statement (.andReg x y) := by
  rw [EncodedClass.Statement, encode, fieldClass_encodeXYN]
  simp only [Instr.row, Instr.rowIndex]
  decide
theorem EncodedClass.xorReg (x y : RegIx) : EncodedClass.Statement (.xorReg x y) := by
  rw [EncodedClass.Statement, encode, fieldClass_encodeXYN]
  simp only [Instr.row, Instr.rowIndex]
  decide
theorem EncodedClass.addReg (x y : RegIx) : EncodedClass.Statement (.addReg x y) := by
  rw [EncodedClass.Statement, encode, fieldClass_encodeXYN]
  simp only [Instr.row, Instr.rowIndex]
  decide
theorem EncodedClass.sub (x y : RegIx) : EncodedClass.Statement (.sub x y) := by
  rw [EncodedClass.Statement, encode, fieldClass_encodeXYN]
  simp only [Instr.row, Instr.rowIndex]
  decide
theorem EncodedClass.shr (x y : RegIx) : EncodedClass.Statement (.shr x y) := by
  rw [EncodedClass.Statement, encode, fieldClass_encodeXYN]
  simp only [Instr.row, Instr.rowIndex]
  decide
theorem EncodedClass.subn (x y : RegIx) : EncodedClass.Statement (.subn x y) := by
  rw [EncodedClass.Statement, encode, fieldClass_encodeXYN]
  simp only [Instr.row, Instr.rowIndex]
  decide
theorem EncodedClass.shl (x y : RegIx) : EncodedClass.Statement (.shl x y) := by
  rw [EncodedClass.Statement, encode, fieldClass_encodeXYN]
  simp only [Instr.row, Instr.rowIndex]
  decide
theorem EncodedClass.sneReg (x y : RegIx) : EncodedClass.Statement (.sneReg x y) := by
  rw [EncodedClass.Statement, encode, fieldClass_encodeXYN]
  simp only [Instr.row, Instr.rowIndex]
  decide
theorem EncodedClass.ldI (nnn : Addr12) : EncodedClass.Statement (.ldI nnn) := by
  rw [EncodedClass.Statement, encode, fieldClass_encodeNNN]
  simp only [Instr.row, Instr.rowIndex]
  decide
theorem EncodedClass.jpV0 (nnn : Addr12) : EncodedClass.Statement (.jpV0 nnn) := by
  rw [EncodedClass.Statement, encode, fieldClass_encodeNNN]
  simp only [Instr.row, Instr.rowIndex]
  decide
theorem EncodedClass.rnd (x : RegIx) (nn : Byte) : EncodedClass.Statement (.rnd x nn) := by
  rw [EncodedClass.Statement, encode, fieldClass_encodeXNN]
  simp only [Instr.row, Instr.rowIndex]
  decide
theorem EncodedClass.drw (x y : RegIx) (n : Rows) : EncodedClass.Statement (.drw x y n) := by
  rw [EncodedClass.Statement, encode, fieldClass_encodeXYN]
  simp only [Instr.row, Instr.rowIndex]
  decide
theorem EncodedClass.skp (x : RegIx) : EncodedClass.Statement (.skp x) := by
  rw [EncodedClass.Statement, encode, fieldClass_encodeXNN]
  simp only [Instr.row, Instr.rowIndex]
  decide
theorem EncodedClass.sknp (x : RegIx) : EncodedClass.Statement (.sknp x) := by
  rw [EncodedClass.Statement, encode, fieldClass_encodeXNN]
  simp only [Instr.row, Instr.rowIndex]
  decide
theorem EncodedClass.ldVxDt (x : RegIx) : EncodedClass.Statement (.ldVxDt x) := by
  rw [EncodedClass.Statement, encode, fieldClass_encodeXNN]
  simp only [Instr.row, Instr.rowIndex]
  decide
theorem EncodedClass.ldVxK (x : RegIx) : EncodedClass.Statement (.ldVxK x) := by
  rw [EncodedClass.Statement, encode, fieldClass_encodeXNN]
  simp only [Instr.row, Instr.rowIndex]
  decide
theorem EncodedClass.ldDtVx (x : RegIx) : EncodedClass.Statement (.ldDtVx x) := by
  rw [EncodedClass.Statement, encode, fieldClass_encodeXNN]
  simp only [Instr.row, Instr.rowIndex]
  decide
theorem EncodedClass.ldStVx (x : RegIx) : EncodedClass.Statement (.ldStVx x) := by
  rw [EncodedClass.Statement, encode, fieldClass_encodeXNN]
  simp only [Instr.row, Instr.rowIndex]
  decide
theorem EncodedClass.addI (x : RegIx) : EncodedClass.Statement (.addI x) := by
  rw [EncodedClass.Statement, encode, fieldClass_encodeXNN]
  simp only [Instr.row, Instr.rowIndex]
  decide
theorem EncodedClass.ldF (x : RegIx) : EncodedClass.Statement (.ldF x) := by
  rw [EncodedClass.Statement, encode, fieldClass_encodeXNN]
  simp only [Instr.row, Instr.rowIndex]
  decide
theorem EncodedClass.ldB (x : RegIx) : EncodedClass.Statement (.ldB x) := by
  rw [EncodedClass.Statement, encode, fieldClass_encodeXNN]
  simp only [Instr.row, Instr.rowIndex]
  decide
theorem EncodedClass.ldMemVx (x : RegIx) : EncodedClass.Statement (.ldMemVx x) := by
  rw [EncodedClass.Statement, encode, fieldClass_encodeXNN]
  simp only [Instr.row, Instr.rowIndex]
  decide
theorem EncodedClass.ldVxMem (x : RegIx) : EncodedClass.Statement (.ldVxMem x) := by
  rw [EncodedClass.Statement, encode, fieldClass_encodeXNN]
  simp only [Instr.row, Instr.rowIndex]
  decide

end Sys2Proof.Laws
end

