-- ==== Sys2Proof/Laws/Step.lean ====
section
/-! SUPPORT. What a `Step` can do, said once: the four ways it ends (R98). -/

namespace Sys2Proof.Machine

variable {p : Params}

/-! ## `stepBy`, for any decoder and any meaning of the instructions -/

/-- The gate (R99). -/
theorem stepBy_held (dec : Word → Option Instr) (run : Instr → State p → StepOutcome p) (rnd : Byte) {s : State p}
    (h : s.keyWait = true) : stepBy dec run rnd s = .next s.holdStep := by
  simp [stepBy, h]

/-- The fetch fails (R30, R98 step 2). -/
theorem stepBy_fetch_error (dec : Word → Option Instr) (run : Instr → State p → StepOutcome p) (rnd : Byte) {s : State p}
    (h : s.keyWait = false) {f : Fault} (hf : s.fetch = .error f) : stepBy dec run rnd s = .fault f := by
  simp [stepBy, h, hf]

/-- The word selects no row (R98 step 4). -/
theorem stepBy_unsupported {dec : Word → Option Instr} (run : Instr → State p → StepOutcome p) (rnd : Byte) {s : State p}
    (h : s.keyWait = false) {w : Word} (hf : s.fetch = .ok w) (hd : dec w = none) :
    stepBy dec run rnd s = .next ((s.beginStep rnd).raiseUnsupported w) := by
  simp [stepBy, h, hf, hd]

/-- The word is an instruction (R98 step 5). -/
theorem stepBy_decoded {dec : Word → Option Instr} (run : Instr → State p → StepOutcome p) (rnd : Byte) {s : State p}
    (h : s.keyWait = false) {w : Word} (hf : s.fetch = .ok w) {i : Instr} (hd : dec w = some i) :
    stepBy dec run rnd s = run i (s.beginStep rnd) := by
  simp [stepBy, h, hf, hd]

/-- Two decoders that agree on every word, and two meanings that agree, make the same step. -/
theorem stepBy_congr {dec dec' : Word → Option Instr} {run run' : Instr → State p → StepOutcome p} (hd : ∀ w, dec w = dec' w)
    (hr : ∀ i s, run i s = run' i s) (rnd : Byte) (s : State p) : stepBy dec run rnd s = stepBy dec' run' rnd s := by
  rw [funext hd, funext fun i => funext (hr i)]

/-! ## The step of this hardware -/

/-- The gate (R99). -/
theorem stepWith_held (rnd : Byte) {s : State} (h : s.keyWait = true) : stepWith rnd s = .next s.holdStep :=
  stepBy_held _ _ rnd h

/-- The fetch fails (R30, R98 step 2). -/
theorem stepWith_fetch_error (rnd : Byte) {s : State} (h : s.keyWait = false) {f : Fault} (hf : s.fetch = .error f) :
    stepWith rnd s = .fault f :=
  stepBy_fetch_error _ _ rnd h hf

/-- The word selects no row (R98 step 4). -/
theorem stepWith_unsupported (rnd : Byte) {s : State} (h : s.keyWait = false) {w : Word} (hf : s.fetch = .ok w)
    {e : Reject} (hd : decode w = .error e) : stepWith rnd s = .next ((s.beginStep rnd).raiseUnsupported w) :=
  stepBy_unsupported _ rnd h hf (by rw [hd]; rfl)

/-- The word is an instruction (R98 step 5). -/
theorem stepWith_decoded (rnd : Byte) {s : State} (h : s.keyWait = false) {w : Word} (hf : s.fetch = .ok w) {i : Instr}
    (hd : decode w = .ok i) : stepWith rnd s = exec i (s.beginStep rnd) :=
  stepBy_decoded _ rnd h hf (by rw [hd]; rfl)

/-- Every `Step` is one of the four. -/
theorem stepWith_cases (rnd : Byte) (s : State) :
    (s.keyWait = true ∧ stepWith rnd s = .next s.holdStep) ∨
      (s.keyWait = false ∧ ∃ f, s.fetch = .error f ∧ stepWith rnd s = .fault f) ∨
      (s.keyWait = false ∧ ∃ w e, s.fetch = .ok w ∧ decode w = .error e ∧
        stepWith rnd s = .next ((s.beginStep rnd).raiseUnsupported w)) ∨
      (s.keyWait = false ∧ ∃ w i, s.fetch = .ok w ∧ decode w = .ok i ∧ stepWith rnd s = exec i (s.beginStep rnd)) := by
  cases hk : s.keyWait with
  | true => exact .inl ⟨rfl, stepWith_held rnd hk⟩
  | false =>
    cases hf : s.fetch with
    | error f => exact .inr (.inl ⟨rfl, f, rfl, stepWith_fetch_error rnd hk hf⟩)
    | ok w =>
      cases hd : decode w with
      | error e => exact .inr (.inr (.inl ⟨rfl, w, e, rfl, hd, stepWith_unsupported rnd hk hf hd⟩))
      | ok i => exact .inr (.inr (.inr ⟨rfl, w, i, rfl, hd, stepWith_decoded rnd hk hf hd⟩))

/-- The fetch of a state whose `pc` is at most 0xFFE (R30). -/
theorem State.fetch_ok {s : State p} (h : s.pc.toNat ≤ 0xFFE) :
    s.fetch = .ok (wordOfBytes (s.byte s.pc.toNat) (s.byte (s.pc.toNat + 1))) :=
  Memory.fetchWord_ok s.mem (by omega)

/-- The fetch of a state whose `pc` is above 0xFFE (R30). -/
theorem State.fetch_error {s : State p} (h : 0xFFE < s.pc.toNat) :
    s.fetch = .error (.addressError (max s.pc.toNat 4096)) :=
  Memory.fetchWord_error s.mem (by omega)

/-- A `CALL` on a stack that is not full (R53). -/
theorem execCall_of_lt {s : State p} (nnn : Addr12) (h : s.sp.val < p.stackDepth) :
    execCall nnn s = .next ((s.pushPc h).setPc (addrOperand nnn)) :=
  dif_pos h

/-- A `CALL` on a full stack (R89). -/
theorem execCall_full {s : State p} (nnn : Addr12) (h : s.sp.val = p.stackDepth) :
    execCall nnn s = .fault (.stackOverflow s.pc) :=
  dif_neg (by simp [h])

/-- A `RET` on a stack that is not empty (R51). -/
theorem execRet_of_ne {s : State p} (h : s.sp.val ≠ 0) : execRet s = .next (s.pop.setPc (s.top h + 2#16)) :=
  dif_pos h

/-- A `RET` on an empty stack (R90). -/
theorem execRet_empty {s : State p} (h : s.sp.val = 0) : execRet s = .fault (.stackUnderflow s.pc) :=
  dif_neg (by simp [h])

/-- The depth of this hardware's stack, by both its names (D4). -/
theorem params_stackDepth : Config.params.stackDepth = Config.stackDepth := rfl

/-- The word that `SYS` reports on this hardware: `0NNN` (R50). -/
theorem encodeUnder_sys (nnn : Addr12) : encodeUnder Config.params.numerals (.sys nnn) = addrOperand nnn := by
  show encodeUnder Config.numerals (.sys nnn) = _
  rw [encodeUnder_numerals]
  apply BitVec.eq_of_toNat_eq
  simp [encode, encodeNNN_toNat, addrOperand]
  have := nnn.isLt
  omega

/-- `SYS` on this hardware (R50). -/
theorem execSys_eq (nnn : Addr12) (s : State) : execSys nnn s = .next (s.raiseUnsupported (addrOperand nnn)) := by
  rw [execSys, encodeUnder_sys]

/-! ## The events, one by one -/

@[simp] theorem applyEvent_reset (s : State) : applyEvent .reset s = (s.resetFrom, .ok) := rfl
@[simp] theorem applyEvent_step (rnd : Byte) (s : State) :
    applyEvent (.step rnd) s = eventOfStep s (stepWith rnd s) := rfl
@[simp] theorem applyEvent_tick (s : State) : applyEvent .tick s = (s.tick, .ok) := rfl
@[simp] theorem applyEvent_keyDown (k : Key) (s : State) : applyEvent (.keyDown k) s = (s.keyDown k, .ok) := rfl
@[simp] theorem applyEvent_keyUp (s : State) : applyEvent .keyUp s = (s.keyUp, .ok) := rfl
@[simp] theorem applyEvent_frameQuery (s : State) : applyEvent .frameQuery s = (s, .drawReady s.drawReady) := rfl
@[simp] theorem applyEvent_frameConsume (s : State) : applyEvent .frameConsume s = (s.frameConsumed, .frame s.fb) := rfl

/-- A program that fits (R112). -/
theorem applyEvent_load {bytes : List Byte} (h : bytes.length ≤ Config.romMax) (s : State) :
    applyEvent (.load bytes) s = (s.loaded bytes, .ok) :=
  if_neg (Nat.not_lt.mpr h)

/-- A program that does not fit (R92, R112). -/
theorem applyEvent_load_too_large {bytes : List Byte} (h : Config.romMax < bytes.length) (s : State) :
    applyEvent (.load bytes) s = (s, .romTooLarge) :=
  if_pos h

end Sys2Proof.Machine
end

