-- ==== Sys2Proof/Tests/Slice0.lean ====
section
/-! SUPPORT. Tests: words written out from the spec's patterns, single steps with the results of spec/95_test_vectors.md (their
names are in the comments), and for each statement with hypotheses a concrete state and operands that meet them. -/

set_option maxRecDepth 8000

namespace Sys2Proof.Machine

/-! ## Helpers -/

/-- What a function of the next state gives; none after a fault or a refusal. -/
def after {α : Type} (o : StepOutcome) (f : State → α) : Option α :=
  match o with
  | .next t => some (f t)
  | _ => none

/-- The error an outcome reports, if it is one. -/
def errorOf (o : StepOutcome) : Option Fault :=
  match o with
  | .fault f => some f
  | _ => none

/-- Reset, with some registers set. -/
def regsSet (l : List (RegIx × Byte)) : State := l.foldl (fun s p => s.setReg p.1 p.2) State.reset

/-- `s` with `I` set and bytes stored in memory. -/
def withData (s : State) (i : Word) (a : Nat) (bs : List Byte) : State :=
  { s with i := i, mem := s.mem.writeBytes Config.font a bs }

/-- One `Step(rnd = A7)` on the word `w` at `pc`. -/
def run (s : State) (w : Nat) : StepOutcome := stepWith 0xA7#8 (s.withFetchWord 16 w)

/-- The named registers of a state. -/
def regsOf (l : List RegIx) (s : State) : List Byte := l.map s.reg

/-- Whether two registers hold these values in the next state. -/
def two (o : StepOutcome) (x : RegIx) : Option (Byte × Byte) := after o fun t => (t.reg x, t.reg 15)

/-- The lit pixels, by (column, row), in row order. -/
def litPixels (s : State) : List (Nat × Nat) :=
  (List.range 32).flatMap fun y => (List.range 64).filterMap fun x =>
    if Framebuffer.lit s.fb (Fin.ofNat 64 x, Fin.ofNat 32 y) then some (x, y) else none

/-! ## WellFormed: an ill-formed term for its one check -/

theorem test_wf_refuses_sys_00E0 : Instr.wf (.sys 0x0E0#12) = false := by decide
theorem test_wf_refuses_sys_00EE : Instr.wf (.sys 0x0EE#12) = false := by decide
theorem test_wf_accepts_neighbours :
    Instr.wf (.sys 0x0E1#12) = true ∧ Instr.wf (.sys 0x0EF#12) = true ∧ Instr.wf (.jp 0x0E0#12) = true := by decide

/-! ## Decoding: one word for every constructor, each field with a value of its own (R41, R44) -/

theorem test_decode_class_0_to_2 :
    decode 0b0000000100100011#16 = .ok (.sys 0x123#12) ∧ decode 0b0000000011100000#16 = .ok .cls ∧
    decode 0b0000000011101110#16 = .ok .ret ∧ decode 0b0001101010111100#16 = .ok (.jp 0xABC#12) ∧
    decode 0b0010001100000001#16 = .ok (.call 0x301#12) := by decide

theorem test_decode_class_3_to_7 :
    decode 0b0011101001000010#16 = .ok (.seByte 10 0x42#8) ∧ decode 0b0100101101000011#16 = .ok (.sneByte 11 0x43#8) ∧
    decode 0b0101101010110000#16 = .ok (.seReg 10 11) ∧ decode 0b0110101001111111#16 = .ok (.ldByte 10 0x7F#8) ∧
    decode 0b0111000111111110#16 = .ok (.addByte 1 0xFE#8) := by decide

theorem test_decode_class_8 :
    decode 0b1000000100100000#16 = .ok (.ldReg 1 2) ∧ decode 0b1000000100100001#16 = .ok (.orReg 1 2) ∧
    decode 0b1000000100100010#16 = .ok (.andReg 1 2) ∧ decode 0b1000000100100011#16 = .ok (.xorReg 1 2) ∧
    decode 0b1000000100100100#16 = .ok (.addReg 1 2) ∧ decode 0b1000000100100101#16 = .ok (.sub 1 2) ∧
    decode 0b1000000100100110#16 = .ok (.shr 1 2) ∧ decode 0b1000000100100111#16 = .ok (.subn 1 2) ∧
    decode 0b1000000100101110#16 = .ok (.shl 1 2) := by decide

theorem test_decode_class_9_to_D :
    decode 0b1001101010110000#16 = .ok (.sneReg 10 11) ∧ decode 0b1010001100000100#16 = .ok (.ldI 0x304#12) ∧
    decode 0b1011001100000101#16 = .ok (.jpV0 0x305#12) ∧ decode 0b1100001100001111#16 = .ok (.rnd 3 0x0F#8) ∧
    decode 0b1101000100100101#16 = .ok (.drw 1 2 5) := by decide

theorem test_decode_class_E_F :
    decode 0b1110001110011110#16 = .ok (.skp 3) ∧ decode 0b1110001110100001#16 = .ok (.sknp 3) ∧
    decode 0b1111010000000111#16 = .ok (.ldVxDt 4) ∧ decode 0b1111010000001010#16 = .ok (.ldVxK 4) ∧
    decode 0b1111010000010101#16 = .ok (.ldDtVx 4) ∧ decode 0b1111010000011000#16 = .ok (.ldStVx 4) ∧
    decode 0b1111010000011110#16 = .ok (.addI 4) ∧ decode 0b1111010000101001#16 = .ok (.ldF 4) ∧
    decode 0b1111010000110011#16 = .ok (.ldB 4) ∧ decode 0b1111010001010101#16 = .ok (.ldMemVx 4) ∧
    decode 0b1111010001100101#16 = .ok (.ldVxMem 4) := by decide

/-- The words that select no row, each rejected by name (R46; S11, K11, K12, A32, A33, Y10, Y27, P6). -/
theorem test_decode_rejects :
    decode 0x5121#16 = .error (.class5 1) ∧ decode 0x8008#16 = .error (.class8 8) ∧
    decode 0x812F#16 = .error (.class8 15) ∧ decode 0x9AB5#16 = .error (.class9 5) ∧
    decode 0xE09F#16 = .error (.classE 0x9F#8) ∧ decode 0xE000#16 = .error (.classE 0x00#8) ∧
    decode 0xF0FF#16 = .error (.classF 0xFF#8) ∧ decode 0xF090#16 = .error (.classF 0x90#8) := by decide

/-- High byte first (R30, R40), and the rest of the bytes is left. -/
theorem test_decodeBytes :
    decodeBytes [0x12#8, 0x00#8, 0x60#8] = .ok (.jp 0x200#12, [0x60#8]) ∧ decodeBytes [0x12#8] = .error .truncated := by
  decide

theorem test_decodeTableWord :
    decodeTableWord 16 0x00E0 = some .cls ∧ decodeTableWord 16 0xF365 = some (.ldVxMem 3) ∧
    decodeTableWord 16 0x5121 = none := by decide

/-! ## Control transfer -/

-- T11, T12
theorem test_sys_reports : after (run State.reset 0x00E1) (fun t => (t.pc, t.report)) =
    some (0x0202#16, .unsupportedOpcode 0x00E1#16 0x0200#16) := by decide
-- T7
theorem test_ret : after (run { State.reset with sp := 1, pc := 0x020C#16, stack := State.reset.stack.set 0 0x0204#16 } 0x00EE)
    (fun t => (t.pc, t.sp, t.stack[0])) = some (0x0206#16, 0, 0x0204#16) := by decide
-- T8
theorem test_ret_underflow : errorOf (run State.reset 0x00EE) = some (.stackUnderflow 0x0200#16) := by decide
-- T1, T3
theorem test_jp : after (run State.reset 0x1ABC) State.pc = some 0x0ABC#16 ∧
    after (run State.reset 0x1201) State.pc = some 0x0201#16 := by decide
-- T5
theorem test_call : after (run { State.reset with pc := 0x0204#16 } 0x220A) (fun t => (t.pc, t.sp, t.stack[0])) =
    some (0x020A#16, 1, 0x0204#16) := by decide
-- T6
theorem test_call_overflow : errorOf (run { State.reset with sp := 16 } 0x2300) = some (.stackOverflow 0x0200#16) := by decide
-- T9, T10
theorem test_jpV0 : after (run (regsSet [(0, 0x04#8)]) 0xB300) State.pc = some 0x0304#16 ∧
    after (run (regsSet [(0, 0xFF#8)]) 0xBFFF) State.pc = some 0x10FE#16 := by decide

/-! ## Skips -/

-- K1, K2
theorem test_seByte : after (run (regsSet [(10, 0x42#8)]) 0x3A42) State.pc = some 0x0204#16 ∧
    after (run (regsSet [(10, 0x43#8)]) 0x3A42) State.pc = some 0x0202#16 := by decide
-- K13
theorem test_seByte_at_the_end : after (run { State.reset with pc := 0x0FFC#16 } 0x3000) State.pc = some 0x1000#16 := by decide
-- K3, K4
theorem test_sneByte : after (run (regsSet [(10, 0x42#8)]) 0x4A42) State.pc = some 0x0202#16 ∧
    after (run (regsSet [(10, 0x43#8)]) 0x4A42) State.pc = some 0x0204#16 := by decide
-- K5, K6
theorem test_seReg : after (run (regsSet [(10, 0x07#8), (11, 0x07#8)]) 0x5AB0) State.pc = some 0x0204#16 ∧
    after (run (regsSet [(10, 0x07#8), (11, 0x08#8)]) 0x5AB0) State.pc = some 0x0202#16 := by decide
-- K8, K9
theorem test_sneReg : after (run (regsSet [(10, 0x07#8), (11, 0x08#8)]) 0x9AB0) State.pc = some 0x0204#16 ∧
    after (run (regsSet [(10, 0x07#8), (11, 0x07#8)]) 0x9AB0) State.pc = some 0x0202#16 := by decide

/-! ## Immediate operations -/

-- M1, M2
theorem test_ldByte : after (run State.reset 0x6A7F) (regsOf [10, 11]) = some [0x7F#8, 0x00#8] ∧
    after (run State.reset 0x6FFF) (regsOf [15]) = some [0xFF#8] := by decide
-- M4, M5
theorem test_addByte : two (run (regsSet [(10, 0xFF#8)]) 0x7A01) 10 = some (0x00#8, 0x00#8) ∧
    after (run (regsSet [(15, 0xFF#8)]) 0x7F02) (regsOf [15]) = some [0x01#8] := by decide
-- M6, M8: the byte of the `Step` is A7 in `run`
theorem test_rnd : after (run State.reset 0xC30F) (regsOf [3]) = some [0x07#8] ∧
    after (run (regsSet [(3, 0x55#8)]) 0xC300) (regsOf [3]) = some [0x00#8] := by decide

/-! ## Register-register operations -/

-- A1
theorem test_ldReg : after (run (regsSet [(1, 0x11#8), (2, 0x9C#8), (15, 0x55#8)]) 0x8120) (regsOf [1, 2, 15]) =
    some [0x9C#8, 0x9C#8, 0x55#8] := by decide
-- A2
theorem test_orReg : two (run (regsSet [(1, 0xF0#8), (2, 0x0F#8), (15, 0x55#8)]) 0x8121) 1 = some (0xFF#8, 0x55#8) := by decide
-- A3
theorem test_andReg : two (run (regsSet [(1, 0xF3#8), (2, 0x3C#8), (15, 0x55#8)]) 0x8122) 1 = some (0x30#8, 0x55#8) := by decide
-- A4
theorem test_xorReg : two (run (regsSet [(1, 0xF3#8), (2, 0x3C#8), (15, 0x55#8)]) 0x8123) 1 = some (0xCF#8, 0x55#8) := by decide
-- A7, A8
theorem test_addReg : two (run (regsSet [(1, 0x80#8), (2, 0x7F#8), (15, 0x01#8)]) 0x8124) 1 = some (0xFF#8, 0x00#8) ∧
    two (run (regsSet [(1, 0x80#8), (2, 0x80#8)]) 0x8124) 1 = some (0x00#8, 0x01#8) := by decide
-- A10, A12
theorem test_addReg_with_flag_register : after (run (regsSet [(15, 0xF0#8), (2, 0x20#8)]) 0x8F24) (regsOf [15]) = some [0x01#8] ∧
    two (run (regsSet [(1, 0xFF#8), (15, 0x01#8)]) 0x81F4) 1 = some (0x00#8, 0x01#8) := by decide
-- A15, A16
theorem test_sub : two (run (regsSet [(1, 0x03#8), (2, 0x05#8)]) 0x8125) 1 = some (0xFE#8, 0x00#8) ∧
    two (run (regsSet [(1, 0x07#8), (2, 0x07#8)]) 0x8125) 1 = some (0x00#8, 0x01#8) := by decide
-- A19
theorem test_sub_to_flag_register : after (run (regsSet [(15, 0x03#8), (2, 0x05#8)]) 0x8F25) (regsOf [15]) = some [0x00#8] := by
  decide
-- A25, A29
theorem test_shr : after (run (regsSet [(1, 0x05#8), (2, 0xEE#8)]) 0x8126) (regsOf [1, 2, 15]) = some [0x02#8, 0xEE#8, 0x01#8] ∧
    two (run (regsSet [(1, 0xFE#8), (15, 0x01#8)]) 0x8126) 1 = some (0x7F#8, 0x00#8) := by decide
-- A30
theorem test_shr_of_flag_register : after (run (regsSet [(15, 0x03#8)]) 0x8F06) (regsOf [15]) = some [0x01#8] := by decide
-- A21, A22
theorem test_subn : two (run (regsSet [(1, 0x03#8), (2, 0x05#8)]) 0x8127) 1 = some (0x02#8, 0x01#8) ∧
    two (run (regsSet [(1, 0x05#8), (2, 0x03#8)]) 0x8127) 1 = some (0xFE#8, 0x00#8) := by decide
-- A35, A36
theorem test_shl : two (run (regsSet [(1, 0x07#8)]) 0x812E) 1 = some (0x0E#8, 0x00#8) ∧
    two (run (regsSet [(1, 0x08#8)]) 0x812E) 1 = some (0x10#8, 0x01#8) := by decide
-- A37, A38 under bit7
theorem test_shl_bit7 : two (execShlUnder .bit7 1 (regsSet [(1, 0x7F#8)])) 1 = some (0xFE#8, 0x00#8) ∧
    two (execShlUnder .bit7 1 (regsSet [(1, 0x80#8)])) 1 = some (0x00#8, 0x01#8) := by decide

/-! ## Keys and timers -/

-- Y1, Y4
theorem test_skp : after (run { regsSet [(0, 0x05#8)] with latch := some 5 } 0xE09E) State.pc = some 0x0204#16 ∧
    after (run { regsSet [(0, 0x15#8)] with latch := some 5 } 0xE09E) State.pc = some 0x0202#16 := by decide
-- Y5, Y6
theorem test_skp_key_0 : after (run { State.reset with latch := some 0 } 0xE09E) State.pc = some 0x0204#16 ∧
    after (run State.reset 0xE09E) State.pc = some 0x0202#16 := by decide
-- Y7, Y8
theorem test_sknp : after (run (regsSet [(0, 0x05#8)]) 0xE0A1) State.pc = some 0x0204#16 ∧
    after (run { regsSet [(0, 0x05#8)] with latch := some 5 } 0xE0A1) State.pc = some 0x0202#16 := by decide
-- Y11
theorem test_ldVxDt : after (run { State.reset with dt := 0x3B#8 } 0xF407) (fun t => (t.reg 4, t.dt)) = some (0x3B#8, 0x3B#8) := by
  decide
-- Y14, Y15
theorem test_ldVxK : after (run { regsSet [(3, 0x77#8)] with latch := some 5 } 0xF30A) (fun t => (t.keyWait, t.pc, t.reg 3)) =
    some (true, 0x0202#16, 0x77#8) := by decide
-- Y12
theorem test_ldDtVx : after (run (regsSet [(2, 0x3C#8)]) 0xF215) (fun t => (t.dt, t.st)) = some (0x3C#8, 0x00#8) := by decide
-- Y13
theorem test_ldStVx : after (run (regsSet [(2, 0x0A#8)]) 0xF218) (fun t => (t.dt, t.st)) = some (0x00#8, 0x0A#8) := by decide

/-! ## Index register and memory -/

-- X1, X2
theorem test_ldI : after (run { State.reset with i := 0xFFFF#16 } 0xA000) State.i = some 0x0000#16 ∧
    after (run State.reset 0xA300) State.i = some 0x0300#16 := by decide
-- X4, X5
theorem test_addI : after (run { regsSet [(1, 0x01#8)] with i := 0xFFFF#16 } 0xF11E) (fun t => (t.i, t.reg 15)) = some (0x0000#16, 0x00#8) ∧
    after (run { regsSet [(1, 0x01#8)] with i := 0x0FFF#16 } 0xF11E) State.i = some 0x1000#16 := by decide
-- S16, and D20's largest address
theorem test_ldF : after (run (regsSet [(0, 0x0A#8)]) 0xF029) State.i = some 0x0032#16 ∧
    after (run (regsSet [(0, 0xFF#8)]) 0xF029) State.i = some 0x04FB#16 := by decide
-- X19
theorem test_ldB : after (run { regsSet [(3, 0x9D#8)] with i := 0x0FFD#16 } 0xF333)
    (fun t => ([0xFFC, 0xFFD, 0xFFE, 0xFFF].map t.byte, t.i)) = some ([0x00#8, 0x01#8, 0x05#8, 0x07#8], 0x0FFD#16) := by decide
-- X20, X22
theorem test_ldB_beyond : errorOf (run { regsSet [(3, 0x9D#8)] with i := 0x0FFE#16 } 0xF333) = some (.addressError 0x1000) ∧
    errorOf (run { regsSet [(3, 0x9D#8)] with i := 0xFFFF#16 } 0xF333) = some (.addressError 0xFFFF) := by decide
-- S7, with a byte on each side
theorem test_ldMemVx : after (run { regsSet [(0, 0x11#8), (1, 0x22#8), (2, 0x33#8)] with i := 0x0400#16 } 0xF155)
    (fun t => ([0x3FF, 0x400, 0x401, 0x402].map t.byte, t.i)) = some ([0x00#8, 0x11#8, 0x22#8, 0x00#8], 0x0400#16) := by decide
-- X24, X25
theorem test_ldMemVx_at_the_end : errorOf (run { State.reset with i := 0x0FF1#16 } 0xFF55) = some (.addressError 0x1000) ∧
    after (run { regsSet [(0, 0x10#8)] with i := 0x0FFF#16 } 0xF055) (fun t => t.byte 0xFFF) = some 0x10#8 := by decide
-- X27
theorem test_ldVxMem : after (run (withData (regsSet [(3, 0xEE#8)]) 0x0300#16 0x300 [0x01#8, 0x05#8, 0x07#8]) 0xF265)
    (fun t => (regsOf [0, 1, 2, 3] t, t.i)) = some ([0x01#8, 0x05#8, 0x07#8, 0xEE#8], 0x0300#16) := by decide
-- X28, X29
theorem test_ldVxMem_font : after (run State.reset 0xF465) (regsOf [0, 1, 2, 3, 4]) =
    some [0xF0#8, 0x90#8, 0x90#8, 0x90#8, 0xF0#8] ∧
    errorOf (run { State.reset with i := 0x0FF1#16 } 0xFF65) = some (.addressError 0x1000) := by decide

/-! ## Framebuffer -/

/-- The state of F4: an all-set row, at column 60 of row 0. -/
def edgeSprite : State := withData (regsSet [(0, 0x3C#8)]) 0x0300#16 0x300 [0xFF#8]

-- F1
theorem test_cls : after (run { regsSet [(15, 0x01#8)] with fb := State.reset.fb.set 2 4#64 } 0x00E0)
    (fun t => (litPixels t, t.drawReady, t.reg 15)) = some ([], true, 0x01#8) := by decide
-- F4, wrap
theorem test_drw_wrap : after (run edgeSprite 0xD011) (fun t => (litPixels t, t.reg 15, t.drawReady)) =
    some ([(0, 0), (1, 0), (2, 0), (3, 0), (60, 0), (61, 0), (62, 0), (63, 0)], 0x00#8, true) := by decide
-- F4, clip
theorem test_drw_clip : after (execDrwUnder .clip 0 1 1 edgeSprite) (fun t => (litPixels t, t.reg 15)) =
    some ([(60, 0), (61, 0), (62, 0), (63, 0)], 0x00#8) := by decide
-- F3: a glyph, so the bit order
theorem test_drw_glyph : after (run State.reset 0xD012) litPixels =
    some [(0, 0), (1, 0), (2, 0), (3, 0), (0, 1), (3, 1)] := by decide
-- F6, second draw: a partial overlap
theorem test_drw_collision :
    after (run { withData (regsSet [(0, 0x08#8), (1, 0x04#8)]) 0x0301#16 0x300 [0xF0#8, 0x3C#8] with
      fb := State.reset.fb.set 4 0xF00#64 } 0xD011) (fun t => (litPixels t, t.reg 15)) =
    some ([(8, 4), (9, 4), (12, 4), (13, 4)], 0x01#8) := by decide
-- F7: the old VF is the column
theorem test_drw_flag_register_is_x : after (run (withData (regsSet [(15, 0x03#8), (1, 0x02#8)]) 0x0300#16 0x300 [0x80#8]) 0xDF11)
    (fun t => (litPixels t, t.reg 15)) = some ([(3, 2)], 0x00#8) := by decide
-- F8, F9
theorem test_drw_bounds : after (run { regsSet [(15, 0x01#8)] with i := 0xFFFF#16 } 0xD000) (fun t => (t.reg 15, t.drawReady)) =
    some (0x00#8, true) ∧ errorOf (run { State.reset with i := 0x0FFE#16 } 0xD003) = some (.addressError 0x1000) := by decide

/-! ## The step and the host's events -/

-- E1, E3, E4
theorem test_fetch_at_the_end :
    after (stepWith 0x00#8 { State.reset with pc := 0x0FFE#16 }) State.pc = some 0x1000#16 ∧
    errorOf (stepWith 0x00#8 { State.reset with pc := 0x0FFF#16 }) = some (.addressError 0x1000) ∧
    errorOf (stepWith 0x00#8 { State.reset with pc := 0x1002#16 }) = some (.addressError 0x1002) := by decide
-- E6
theorem test_step_in_the_font : applyEvent (.step 0x00#8) { State.reset with pc := 0x0000#16 } =
    ({ State.reset with pc := 0x0002#16, report := .unsupportedOpcode 0xF090#16 0x0000#16 },
      .unsupportedOpcode 0xF090#16 0x0000#16) := by decide
-- E5: `step` itself, from reset with nothing loaded
theorem test_step_from_reset : after (step State.reset) (fun t => (t.pc, t.report)) =
    some (0x0202#16, .unsupportedOpcode 0x0000#16 0x0200#16) := by decide
-- T2, first instruction after reset through withFetchWord
theorem test_withFetchWord : after (step (State.reset.withFetchWord 16 0x1ABC)) (fun t => (t.pc, t.report)) =
    some (0x0ABC#16, .ok) := by decide
-- Y22, Y23
theorem test_tick : applyEvent .tick { State.reset with st := 0xFF#8, keyWait := true } =
    ({ State.reset with st := 0xFE#8, keyWait := true }, .ok) := by decide
-- Y17, Y18
theorem test_key_events : applyEvent .keyUp { State.reset with latch := some 3, keyWait := true } =
      ({ State.reset with keyWait := true }, .ok) ∧
    applyEvent (.keyDown 9) { State.reset with keyWait := true } = ({ State.reset with latch := some 9 }, .ok) := by decide
-- Y25
theorem test_frame_events : applyEvent .frameConsume { State.reset with fb := State.reset.fb.set 0 1#64, drawReady := true } =
      ({ State.reset with fb := State.reset.fb.set 0 1#64 }, .frame (State.reset.fb.set 0 1#64)) ∧
    Framebuffer.cell (State.reset.fb.set 0 1#64) 0 = true := by decide
-- E7
theorem test_load : (applyEvent (.load [0x12#8, 0x00#8]) State.reset).1.mem = [(0x200, 0x12#8)] := by decide
-- E9
theorem test_load_too_large (s : State) (bytes : List Byte) (h : bytes.length = 0xE01) :
    applyEvent (.load bytes) s = (s, .romTooLarge) := if_pos (by rw [h]; decide)
-- E10
theorem test_reset : applyEvent .reset { regsSet [(3, 0x55#8)] with pc := 0x0300#16, keyWait := true } = (State.reset, .ok) := by decide
-- X30, R27: the font is writable, and writing its own byte back leaves reset memory
theorem test_memory_canonical : (Memory.write Config.font [] 0 0xAB#8).byte Config.font 0 = 0xAB#8 ∧
    Memory.write Config.font (Memory.write Config.font [] 0 0xAB#8) 0 0xF0#8 = [] := by decide

/-! ## Witnesses: for each statement with hypotheses, a state and operands that meet them -/

theorem witness_DecodeEncodeRoundTrip : Instr.wf (.sys 0x0E1#12) = true ∧ Instr.wf (.drw 15 15 15) = true := by decide
theorem witness_EncodeDecodeRoundTrip : decode 0x00E1#16 = .ok (.sys 0x0E1#12) ∧ decode 0xFF65#16 = .ok (.ldVxMem 15) := by decide
theorem witness_DecodedWordSelectsItsRow : decode 0x00EF#16 = .ok (.sys 0x0EF#12) ∧ decode 0x00EE#16 = .ok .ret := by decide

/-- A jump to itself in the last two bytes of memory. -/
def lastWord : State := { withData State.reset 0 0xFFE [0x1F#8, 0xFE#8] with pc := 0x0FFE#16 }

theorem witness_StepRunsDecodedInstruction :
    lastWord.keyWait = false ∧ lastWord.pc.toNat ≤ 0xFFE ∧ decode lastWord.wordAtPc = .ok (.jp 0xFFE#12) := by decide

/-- An unsupported word of class 5 in the last two bytes of memory. -/
def unsupportedLast : State := { withData State.reset 0 0xFFE [0x51#8, 0x21#8] with pc := 0x0FFE#16 }

theorem witness_UnsupportedWordAdvancesPcOnly :
    unsupportedLast.keyWait = false ∧ unsupportedLast.pc.toNat ≤ 0xFFE ∧ Unsupported unsupportedLast.wordAtPc ∧
      State.reset.keyWait = false ∧ State.reset.pc.toNat ≤ 0xFFE ∧ Unsupported State.reset.wordAtPc :=
  ⟨by decide, by decide, .inl ⟨.class5 1, by decide⟩, by decide, by decide, .inr ⟨0, by decide⟩⟩

theorem witness_HeldStepChangesNothing : ({ State.reset with keyWait := true } : State).keyWait = true := by decide

theorem witness_FetchBeyondMemoryFaults :
    ({ State.reset with pc := 0x0FFF#16 } : State).keyWait = false ∧
      0xFFE < ({ State.reset with pc := 0x0FFF#16 } : State).pc.toNat ∧
      0xFFF < ({ State.reset with pc := 0x1000#16 } : State).pc.toNat := by decide

/-- A full stack. -/
def fullStack : State := { State.reset with sp := 16 }

theorem witness_ErrorsArriveOnlyAsListed :
    errorOf (exec .ret State.reset) = some (.stackUnderflow 0x0200#16) ∧
      errorOf (exec (.call 0x300#12) fullStack) = some (.stackOverflow 0x0200#16) ∧
      errorOf (exec (.ldMemVx 0) { State.reset with i := 0x1000#16 }) = some (.addressError 0x1000) ∧
      errorOf (exec (.ldB 0) { State.reset with i := 0x0FFE#16 }) = some (.addressError 0x1000) ∧
      errorOf (exec (.drw 0 0 2) { State.reset with i := 0x0FFF#16 }) = some (.addressError 0x1000) := by decide

/-- Reset, loaded with `RET` (P6's last word). -/
def underflows : State := withData State.reset 0 0x200 [0x00#8, 0xEE#8]

theorem witness_FatalErrorChangesNothing : stepWith 0x5A#8 underflows = .fault (.stackUnderflow 0x0200#16) := by rfl

theorem witness_FatalErrorPersists : stepWith 0x5A#8 underflows = .fault (.stackUnderflow 0x0200#16) ∧
    ∀ e ∈ [Event.tick, .keyDown 5, .step 0x01#8, .keyUp, .frameConsume, .frameQuery],
      e ≠ .reset ∧ ∀ bytes, e ≠ .load bytes :=
  ⟨rfl, by simp⟩

theorem witness_RetPopsPastTheCall :
    ({ State.reset with sp := 1 } : State).sp.val = (0 : Fin Config.stackDepth).val + 1 ∧
      fullStack.sp.val = (15 : Fin Config.stackDepth).val + 1 ∧ State.reset.sp.val = 0 := by decide

theorem witness_CallPushesItsOwnAddress :
    State.reset.sp.val = (0 : Fin Config.stackDepth).val ∧
      ({ State.reset with sp := 15 } : State).sp.val = (15 : Fin Config.stackDepth).val ∧
      fullStack.sp.val = Config.stackDepth := by decide

theorem witness_CallThenRetRoundTrip : ({ State.reset with sp := 15 } : State).sp.val < Config.stackDepth := by decide

theorem witness_OnlyRndReadsTheRandomByte :
    (∀ x nn, Instr.cls ≠ .rnd x nn) ∧ (after (exec .cls State.reset) State.drawReady = some true) ∧
      (∀ x nn, Instr.ret ≠ .rnd x nn) ∧ exec .ret State.reset = .fault (.stackUnderflow 0x0200#16) :=
  ⟨by simp, by decide, by simp, rfl⟩

/-- Both kinds of word exist. -/
theorem witness_UnsupportedIffNoRowSelects :
    Unsupported 0x8008#16 ∧ Unsupported 0x00E1#16 ∧ executingRows.any (·.selects 0x8007#16) = true :=
  ⟨.inl ⟨.class8 8, by decide⟩, .inr ⟨0x0E1#12, by decide⟩, by decide⟩

/-- The clauses on one register named twice, and on a register that is not the destination. -/
theorem witness_SkipsOnRegisters_and_frames : (10 : RegIx) = 10 ∧ (15 : RegIx) ≠ 14 ∧ (0 : RegIx) ≠ 15 := by decide

/-- The clauses on `X` and `r` of the flag instructions: `X` and `r` next to 15, and two registers that differ. -/
theorem witness_FlagInstructions : (14 : RegIx) ≠ 15 ∧ (0 : RegIx) ≠ 14 ∧ (0 : RegIx) ≠ 15 := by decide

/-- Each clause: the key of `V[X]` latched, none latched, and one that differs in the high bits alone. -/
theorem witness_KeySkipsCompareTheLatch :
    (∃ k, ({ regsSet [(0, 0x0F#8)] with latch := some 15 } : State).latch = some k ∧
        k.val = (({ regsSet [(0, 0x0F#8)] with latch := some 15 } : State).reg 0).toNat) ∧
      (∀ k, State.reset.latch = some k → k.val ≠ (State.reset.reg 0).toNat) ∧
      ∀ k, ({ regsSet [(0, 0x1F#8)] with latch := some 15 } : State).latch = some k →
        k.val ≠ (({ regsSet [(0, 0x1F#8)] with latch := some 15 } : State).reg 0).toNat :=
  ⟨⟨15, by decide⟩, by decide, by decide⟩

/-- `I` at a given address, reset memory. -/
def atIndex (i : Word) : State := { State.reset with i := i }

theorem witness_BcdStoresThreeDigits :
    (atIndex 0x0FFD).base + 2 ≤ 0xFFF ∧ (atIndex 0x0FFD).canonical = true ∧ 0xFFF < (atIndex 0x0FFE).base + 2 := by decide

theorem witness_DumpAndLoad :
    (atIndex 0x0FF0).base + (15 : RegIx).val ≤ 0xFFF ∧ (atIndex 0x0FFF).base + (0 : RegIx).val ≤ 0xFFF ∧
      (atIndex 0x0FF0).canonical = true ∧ 0xFFF < (atIndex 0x0FF1).base + (15 : RegIx).val ∧
      0xFFF < (atIndex 0x1000).base + (0 : RegIx).val := by decide

/-- The state after the dump is such a `u`. -/
theorem witness_DumpThenLoadRestores :
    (atIndex 0x0FF0).canonical = true ∧ (atIndex 0x0FF0).base + (15 : RegIx).val ≤ 0xFFF ∧
      ∃ t, exec (.ldMemVx 15) (atIndex 0x0FF0) = .next t ∧ ({ t with v := State.reset.v } : State).mem = t.mem :=
  ⟨by decide, by decide, _, rfl, rfl⟩

theorem witness_StoredBytesAreFetched :
    (atIndex 0x0FFE).canonical = true ∧ (atIndex 0x0FFE).base + (1 : RegIx).val ≤ 0xFFF ∧ (1 : RegIx).val = (0 : RegIx).val + 1 ∧
      (1 : RegIx).val ≤ (1 : RegIx).val ∧
      ∃ t, exec (.ldMemVx 1) (atIndex 0x0FFE) = .next t ∧
        ({ t with pc := 0x0FFE#16 } : State).pc.toNat = (atIndex 0x0FFE).base + (0 : RegIx).val :=
  ⟨by decide, by decide, by decide, by decide, _, rfl, by decide⟩

/-- The sprite of `edgeSprite` is set and drawn; nothing is lit before, so no collision. -/
theorem witness_DrwTogglesTheSpriteOnce :
    (edgeSprite.base + (1 : Rows).val ≤ 0x1000) ∧ edgeSprite.DrawnWrap 0 1 1 (3, 0) ∧
      (∀ p, edgeSprite.DrawnWrap 0 1 1 p → edgeSprite.fb.lit p = false) ∧
      ((0 : Rows).val = 0) ∧ (atIndex 0x0FFF).base + (1 : Rows).val ≤ 0x1000 :=
  ⟨by decide, ⟨0, 7, ⟨by decide, by decide, by decide⟩, by decide, by decide⟩, fun p _ => Framebuffer.lit_blank p, rfl, by decide⟩

/-- The same sprite with pixel (3, 0) lit: a collision under `wrap`; under `clip` with (60, 0) lit. -/
theorem witness_drw_collides :
    (∃ p, ({ edgeSprite with fb := State.reset.fb.set 0 8#64 } : State).DrawnWrap 0 1 1 p ∧
        Framebuffer.lit (State.reset.fb.set 0 8#64) p = true) ∧
      ∃ p, ({ edgeSprite with fb := State.reset.fb.set 0 0x1000000000000000#64 } : State).DrawnClip 0 1 1 p ∧
        Framebuffer.lit (State.reset.fb.set 0 0x1000000000000000#64) p = true :=
  ⟨⟨(3, 0), ⟨0, 7, ⟨by decide, by decide, by decide⟩, by decide, by decide⟩, by decide⟩,
    ⟨(60, 0), ⟨0, 0, ⟨by decide, by decide, by decide⟩, by decide, by decide⟩, by decide⟩⟩

theorem witness_DrwUnderClipSkipsOffScreen :
    63 < ((regsSet [(0, 0x40#8)]).reg 0).toNat ∧ 31 < ((regsSet [(1, 0x20#8)]).reg 1).toNat ∧
      (regsSet [(0, 0x40#8)]).base + (1 : Rows).val ≤ 0x1000 ∧
      ∀ p, edgeSprite.DrawnClip 0 1 1 p → edgeSprite.fb.lit p = false :=
  ⟨by decide, by decide, by decide, fun p _ => Framebuffer.lit_blank p⟩

theorem witness_DrwBeyondMemoryFaults :
    (1 : Rows).val ≠ 0 ∧ 0xFFF < (atIndex 0x1000).base + (1 : Rows).val - 1 ∧
      0xFFF < (atIndex 0x0FFE).base + (3 : Rows).val - 1 := by decide

theorem witness_DrwTwiceRestoresTheFrame :
    edgeSprite.base + (1 : Rows).val ≤ 0x1000 ∧
      ∃ t, exec (.drw 0 1 1) edgeSprite = .next t ∧ t.reg 0 = edgeSprite.reg 0 ∧ t.reg 1 = edgeSprite.reg 1 :=
  ⟨by decide, _, rfl, by decide, by decide⟩

theorem witness_WritersOfMemoryAndFrame :
    (∃ t, exec (.ldB 0) (atIndex 0x0000) = .next t ∧ t.mem ≠ (atIndex 0x0000).mem) ∧
      ∃ t, exec (.drw 0 1 1) edgeSprite = .next t ∧ t.fb ≠ edgeSprite.fb ∧ t.drawReady ≠ edgeSprite.drawReady :=
  ⟨⟨_, rfl, by decide⟩, ⟨_, rfl, by decide, by decide⟩⟩

/-- Every clause's field does change somewhere. -/
theorem witness_WritersOfEachElement :
    after (exec (.ldVxK 0) State.reset) (fun t => t.keyWait != State.reset.keyWait) = some true ∧
      after (exec (.ldDtVx 0) (regsSet [(0, 0x01#8)])) (fun t => t.dt != State.reset.dt) = some true ∧
      after (exec (.ldStVx 0) (regsSet [(0, 0x01#8)])) (fun t => t.st != State.reset.st) = some true ∧
      after (exec (.ldI 0x300#12) State.reset) (fun t => t.i != State.reset.i) = some true ∧
      after (exec (.call 0x300#12) State.reset) (fun t => t.stack != State.reset.stack && t.sp != State.reset.sp) = some true ∧
      after (exec .ret fullStack) (fun t => t.sp != fullStack.sp) = some true := by decide

theorem witness_WritersOfTheFlagRegister :
    after (exec (.addReg 0 1) (regsSet [(0, 0xFF#8), (1, 0x01#8)])) (fun t => t.reg 15 != 0x00#8) = some true ∧
      after (exec (.ldVxMem 15) State.reset) (fun t => t.reg 15 != State.reset.reg 15) = some true := by decide

theorem witness_PcAdvancesByTwoOrFour :
    after (exec (.seByte 0 0x00#8) State.reset) State.pc = some 0x0204#16 ∧
      after (exec .cls State.reset) State.pc = some 0x0202#16 ∧
      after (exec (.jp 0x300#12) State.reset) State.pc = some 0x0300#16 := by decide

/-- `LD V0, K` at 0x200. -/
def aboutToWait : State := withData State.reset 0 0x200 [0xF0#8, 0x0A#8]

theorem witness_ModeChangesOnlyAsListed :
    (({ State.reset with keyWait := true } : State).mode = .awaitingKey ∧
        (applyEvent (.keyDown 15) { State.reset with keyWait := true }).1.mode = .running) ∧
      aboutToWait.mode = .running ∧ (applyEvent (.step 0x00#8) aboutToWait).1.mode = .awaitingKey := by decide

theorem witness_WaitingMachineKeepsItsProgramState :
    ({ State.reset with keyWait := true } : State).keyWait = true ∧
      ∀ e ∈ [Event.step 0x00#8, .tick, .keyUp, .frameConsume, .frameQuery],
        e ≠ .reset ∧ (∀ k, e ≠ .keyDown k) ∧ ∀ bytes, e ≠ .load bytes :=
  ⟨by decide, by simp⟩

theorem witness_TerminalStateStays : lastWord.Terminal :=
  ⟨by decide, 0x1FFE#16, 0xFFE#12, by decide, by decide, by decide⟩

/-- The ends of the zeroed region, and the last pixel with its cell. -/
theorem witness_Reset_and_FrameConsume :
    (0x050 ≤ 0x050 ∧ 0x050 ≤ 0xFFF) ∧ ((2047 : Fin 2048).val = ((63, 31) : Pixel).2.val * 64 + ((63, 31) : Pixel).1.val) := by decide

theorem witness_LoadWritesTheProgram :
    (List.replicate 0x0E00 0x55#8).length ≤ 0x0E00 ∧ 0x0E00 < (List.replicate 0x0E01 0x55#8).length ∧
      State.reset.canonical = true :=
  ⟨by rw [List.length_replicate], by rw [List.length_replicate]; decide, rfl⟩

theorem witness_FreshlyBootedState :
    (List.replicate 0x0E00 0x55#8).length ≤ 0x0E00 ∧ ([] : List Byte).length ≤ 0x0E00 :=
  ⟨by rw [List.length_replicate], by decide⟩

/-- A state at each bound of the invariant, and a step from it. -/
def atTheBounds : State :=
  { withData (regsSet [(0, 0xFF#8)]) 0x0FFD#16 0xFFE [0xBF#8, 0xFF#8] with
    pc := 0x0FFE#16, stack := State.reset.stack.set 15 0x0FFE#16, sp := 16 }

theorem witness_StepKeepsTheInvariant : atTheBounds.Inv ∧ after (step atTheBounds) State.pc = some 0x10FE#16 := by decide

theorem witness_EventsKeepTheInvariant : ({ atTheBounds with pc := 0x10FE#16 } : State).Inv := by decide

theorem witness_CanonicalMemoryIsUnique :
    Memory.wf Config.font (Memory.write Config.font (Memory.write Config.font [] 0xFFF 0x01#8) 0x000 0xAB#8) = true ∧
      Memory.wf Config.font [(0x000, 0xAB#8), (0xFFF, 0x01#8)] = true ∧
      ∀ a, (Memory.write Config.font (Memory.write Config.font [] 0xFFF 0x01#8) 0x000 0xAB#8).byte Config.font a =
        Memory.byte Config.font [(0x000, 0xAB#8), (0xFFF, 0x01#8)] a :=
  ⟨by decide, by decide, fun _ => rfl⟩

/-! ## Other values of the parameters (R4) -/

/-- A machine with the other value of each parameter: the depth the reference used (D4), `bit7`, `clip`, another font byte, and
the numerals of `JP` and `CALL` exchanged. -/
def otherParams : Params where
  stackDepth := 10
  font := Config.font.set 79 0x81#8
  shlFlagRule := .bit7
  drawEdge := .clip
  numerals := (Config.numerals.set 3 ⟨0xF000#16, 0x2000#16⟩).set 4 ⟨0xF000#16, 0x1000#16⟩

/-- That machine with `depth` slots in use. -/
def otherState (depth : Fin 11) : State otherParams := { State.resetUnder otherParams with sp := depth }

/-- `SHL` of 0x08 leaves `VF` 0 under `bit7` (D6), the eleventh nested `CALL` overflows, and the last font byte is the other. -/
theorem test_other_parameters_run :
    (match execUnder (.shl 1 1) ((otherState 0).setReg 1 0x08#8) with | .next t => some (t.reg 1, t.reg 15) | _ => none) =
      some (0x10#8, 0x00#8) ∧
    (match execUnder (.call 0x300#12) (otherState 10) with | .fault f => some f | _ => none) = some (.stackOverflow 0x0200#16) ∧
    (otherState 0).byte 79 = 0x81#8 := by decide

/-- The exchanged numerals: 0x1300 is `CALL`, 0x2300 is `JP`, 0x5121 still selects no row. -/
theorem test_other_numerals_decode :
    decodeUnder otherParams.numerals 0x1300#16 = some (.call 0x300#12) ∧
      decodeUnder otherParams.numerals 0x2300#16 = some (.jp 0x300#12) ∧
      decodeUnder otherParams.numerals 0x5121#16 = none ∧
      encodeUnder otherParams.numerals (.call 0x300#12) = 0x1300#16 := by decide

theorem witness_ParametersAreArguments :
    (otherState 9).sp.val < otherParams.stackDepth ∧ (otherState 10).sp.val = otherParams.stackDepth ∧
      (otherState 0).keyWait = false ∧ ((otherState 0).placeWord 0x1300#16).pc.toNat ≤ 0xFFE ∧
      decodeUnder otherParams.numerals ((otherState 0).placeWord 0x1300#16).wordAtPc = some (.call 0x300#12) ∧
      decodeUnder otherParams.numerals ((otherState 0).placeWord 0x5121#16).wordAtPc = none ∧ 80 ≤ (80 : Nat) := by decide

end Sys2Proof.Machine
end

