-- ==== Sys2Proof/Proofs/Immediate.lean ====
section
/-! The immediate operations (R59, R60): each is one register write and the normal advance, so what that pair of updates does to
a state is said once. -/

namespace Sys2Proof.Machine

/-- The normal advance as arithmetic on the number `pc` is (R14). -/
theorem State.advance_pc_toNat {p : Params} (s : State p) : s.advance.pc.toNat = (s.pc.toNat + 2) % 65536 := by
  rw [State.advance_pc, BitVec.toNat_add]
  rfl

/-- One register written, then the advance: the register holds the byte, every other keeps its value, `pc` is 2 further, and no
other field changes (R11, R14). -/
theorem State.setReg_advance_effect {p : Params} (s : State p) (x : RegIx) (b : Byte) :
    (s.setReg x b).advance.reg x = b ∧ (∀ r, r ≠ x → (s.setReg x b).advance.reg r = s.reg r) ∧
      (s.setReg x b).advance.pc.toNat = (s.pc.toNat + 2) % 65536 ∧
      (s.setReg x b).advance = { s with v := (s.setReg x b).advance.v, pc := (s.setReg x b).advance.pc } := by
  refine ⟨?written, fun r hr => ?others, ?pc, rfl⟩
  case written => rw [State.advance_reg, State.setReg_reg_self]
  case others => rw [State.advance_reg, State.setReg_reg_ne s x b hr]
  case pc => rw [State.advance_pc_toNat, State.setReg_pc]

theorem exec_ldByte (x : RegIx) (nn : Byte) (s : State) : exec (.ldByte x nn) s = .next (s.setReg x nn).advance := rfl

theorem exec_addByte (x : RegIx) (nn : Byte) (s : State) :
    exec (.addByte x nn) s = .next (s.setReg x (s.reg x + nn)).advance := rfl

/-- Settles O20: both instructions are one register write and the advance; `ADD` writes the 8-bit sum, which wraps at 256. -/
theorem loadAndAddByte : Obligations.LoadAndAddByte := by
  intro x nn s
  constructor
  · exact ⟨_, exec_ldByte x nn s, s.setReg_advance_effect x nn⟩
  · obtain ⟨hwritten, hframe⟩ := s.setReg_advance_effect x (s.reg x + nn)
    have hsum : ((s.setReg x (s.reg x + nn)).advance.reg x).toNat = ((s.reg x).toNat + nn.toNat) % 256 := by
      rw [hwritten, BitVec.toNat_add]
    exact ⟨_, exec_addByte x nn s, hsum, hframe⟩

end Sys2Proof.Machine
end

