-- ==== Sys2Proof/Proofs/FrameQuery.lean ====
section
/-! `FrameQuery` (R103): the host reads the draw-ready flag and the machine does not move. -/

namespace Sys2Proof.Machine

/-- Settles O54 by the law of the event, which states R103 for every state. -/
theorem frameQueryReadsTheFlag : Obligations.FrameQueryReadsTheFlag := applyEvent_frameQuery

end Sys2Proof.Machine
end

