-- ==== Sys2Proof/Proofs/Encoding.lean ====
section
/-! Encoding (R40 to R46). An encoded word decodes by its fields; the other direction and the unsupported words go through the
opcode table, whose selection is the decoder of R45 (`decodeUnder_numerals`). -/

namespace Sys2Proof

/-- Settles O1: the class nibble picks the decoder's branch, and each field of an encoded word is the operand it was made of. -/
theorem decodeEncodeRoundTrip : Obligations.DecodeEncodeRoundTrip := by
  intro i hwf
  cases i
  case cls | ret => decide
  case sys nnn =>
    have hne : nnn ≠ 0x0E0#12 ∧ nnn ≠ 0x0EE#12 := by simpa [Instr.wf] using hwf
    have hcls : encodeNNN 0#4 nnn ≠ 0x00E0#16 := fun h => hne.1 ((encodeNNN_zero_eq_iff nnn 0x0E0#12).mp h)
    have hret : encodeNNN 0#4 nnn ≠ 0x00EE#16 := fun h => hne.2 ((encodeNNN_zero_eq_iff nnn 0x0EE#12).mp h)
    simp [encode, decode, decodeClass0, hcls, hret]
  case jp nnn | call nnn | ldI nnn | jpV0 nnn => simp [encode, decode]
  case seByte x nn | sneByte x nn | ldByte x nn | addByte x nn | rnd x nn => simp [encode, decode]
  case seReg x y | sneReg x y | drw x y n => simp [encode, decode]
  case skp x | sknp x => simp [encode, decode, decodeClassE]
  case ldVxDt x | ldVxK x | ldDtVx x | ldStVx x | addI x | ldF x | ldB x | ldMemVx x | ldVxMem x =>
    simp [encode, decode, decodeClassF]
  all_goals simp [encode, decode, decodeClass8]

/-! ## Selection by the table -/

/-- `select` answers a row that selects the word, or none where no row does. -/
def Numerals.SelectionIn (t : Numerals) (w : Word) (ks : List (Fin 35)) : Option (Fin 35) → Prop
  | some k => (t.get k).selects w = true
  | none => ∀ k ∈ ks, (t.get k).selects w = false

theorem better_eq_or (t : Numerals) (best : Option (Fin 35)) (k : Fin 35) :
    t.better best k = some k ∨ ∃ b, best = some b ∧ t.better best k = some b := by
  cases best with
  | none => exact .inl rfl
  | some b =>
    rw [Numerals.better]
    split
    · exact .inl rfl
    · exact .inr ⟨b, rfl, rfl⟩

theorem foldl_select (t : Numerals) (w : Word) (done ks : List (Fin 35)) (best : Option (Fin 35))
    (h : t.SelectionIn w done best) :
    t.SelectionIn w (done ++ ks)
      (ks.foldl (fun best k => if (t.get k).selects w then t.better best k else best) best) := by
  induction ks generalizing done best with
  | nil => simpa using h
  | cons k ks ih =>
    rw [List.foldl_cons, List.append_cons]
    apply ih
    split
    next hk =>
      rcases better_eq_or t best k with e | ⟨b, hb, e⟩ <;> rw [e]
      · exact hk
      · rw [hb] at h
        exact h
    next hk =>
      cases best with
      | some b => exact h
      | none =>
        intro j hj
        rcases List.mem_append.mp hj with hj | hj
        · exact h j hj
        · rw [List.mem_singleton.mp hj]
          simpa using hk

/-- The selected row selects the word; where none is selected, no row does. -/
theorem selectionIn_select (t : Numerals) (w : Word) : t.SelectionIn w (List.finRange 35) (t.select w) := by
  simpa [Numerals.select] using foldl_select t w [] (List.finRange 35) none (by simp [Numerals.SelectionIn])

theorem rowIndex_ofRow (k : Fin 35) (w : Word) : (Instr.ofRow k w).rowIndex = k := by
  fin_cases k <;> rfl

/-- Where the decoder answers an instruction, it is that of a row which selects the word, and it is at that row of the table. -/
theorem decode_ok_row {w : Word} {i : Instr} (h : decode w = .ok i) :
    i.row.selects w = true ∧ i = Instr.ofRow i.rowIndex w := by
  have hu : decodeUnder Config.numerals w = some i := by rw [decodeUnder_numerals, h]; rfl
  obtain ⟨k, hk, rfl⟩ := Option.map_eq_some_iff.mp hu
  have hsel := selectionIn_select Config.numerals w
  rw [hk] at hsel
  rw [Instr.row, rowIndex_ofRow]
  exact ⟨hsel, rfl⟩

/-- Where the decoder rejects a word, no row selects it. -/
theorem decode_error_rows {w : Word} {e : Reject} (h : decode w = .error e) (k : Fin 35) :
    (Config.numerals.get k).selects w = false := by
  have hu : decodeUnder Config.numerals w = none := by rw [decodeUnder_numerals, h]; rfl
  have hsel := selectionIn_select Config.numerals w
  rw [Option.map_eq_none_iff.mp hu] at hsel
  exact hsel k (List.mem_finRange k)

theorem mem_executingRows {r : OpcodeRow} : r ∈ executingRows ↔ ∃ k : Fin 35, k ≠ 0 ∧ Config.numerals.get k = r := by
  have hrows : executingRows = (List.finRange 35).tail.map Config.numerals.get := by decide
  have htail : ∀ k : Fin 35, k ∈ (List.finRange 35).tail ↔ k ≠ 0 := by decide
  simp only [hrows, List.mem_map, htail]

/-- Every mask covers the class nibble, so a selected row is of the word's class. -/
theorem fieldClass_of_selects {w : Word} {k : Fin 35} (hs : (Config.numerals.get k).selects w = true) :
    fieldClass w = fieldClass (Config.numerals.get k).value := by
  have hmask : ∀ k, fieldClass (Config.numerals.get k).mask = 0xF#4 := by decide
  have hand : ∀ m, fieldClass (w &&& m) = fieldClass w &&& fieldClass m := fun m => BitVec.extractLsb'_and
  have hsel : w &&& (Config.numerals.get k).mask = (Config.numerals.get k).value := beq_iff_eq.mp hs
  rw [← hsel, hand, hmask]
  exact (BitVec.and_allOnes (x := fieldClass w)).symm

/-- Of the executing rows, only those of `CLS` and `RET` are of class 0, and each selects its one word (R44). -/
theorem selects_executing_class0 {w : Word} (hc : fieldClass w = 0) {k : Fin 35} (hk : k ≠ 0)
    (hs : (Config.numerals.get k).selects w = true) : w = 0x00E0#16 ∨ w = 0x00EE#16 := by
  have hrows : ∀ k : Fin 35, k ≠ 0 → fieldClass (Config.numerals.get k).value = 0 → k = 1 ∨ k = 2 := by decide
  rw [fieldClass_of_selects hs] at hc
  rw [← BitVec.toNat_inj, ← BitVec.toNat_inj]
  rcases hrows k hk hc with rfl | rfl
  · exact .inl (by simpa [rows_select_low] using hs)
  · exact .inr (by simpa [rows_select_low] using hs)

/-- A word that decodes to `SYS` is of class 0 and is neither of the two that `CLS` and `RET` take. -/
theorem decode_sys {w : Word} {nnn : Addr12} (h : decode w = .ok (.sys nnn)) :
    fieldClass w = 0 ∧ w ≠ 0x00E0#16 ∧ w ≠ 0x00EE#16 := by
  refine ⟨?_, ?_, ?_⟩
  · exact fieldClass_of_selects (k := 0) (decode_ok_row h).1
  · rintro rfl
    exact absurd h (by simp [show decode 0x00E0#16 = .ok .cls from by decide])
  · rintro rfl
    exact absurd h (by simp [show decode 0x00EE#16 = .ok .ret from by decide])

/-- A word that decodes to `SYS` is selected by no executing row. -/
theorem decode_sys_rows {w : Word} {nnn : Addr12} (h : decode w = .ok (.sys nnn)) {k : Fin 35} (hk : k ≠ 0) :
    (Config.numerals.get k).selects w = false := by
  obtain ⟨hc, hcls, hret⟩ := decode_sys h
  by_contra hs
  rcases selects_executing_class0 hc hk (by simpa using hs) with e | e
  · exact hcls e
  · exact hret e

/-- Settles O3: the decoder is the table's selection, and a word of `SYS` is one that no executing row selects. -/
theorem decodedWordSelectsItsRow : Obligations.DecodedWordSelectsItsRow := by
  intro w i h
  refine ⟨(decode_ok_row h).1, ?_⟩
  rintro nnn rfl r hr
  obtain ⟨k, hk, rfl⟩ := mem_executingRows.mp hr
  exact decode_sys_rows h hk

/-- Settles O4: a rejected word is selected by no row at all and a word of `SYS` by no executing one; any other word that
decodes is selected by the row of its instruction. -/
theorem unsupportedIffNoRowSelects : Obligations.UnsupportedIffNoRowSelects := by
  intro w
  constructor
  · rintro (⟨e, h⟩ | ⟨nnn, h⟩) r hr <;> obtain ⟨k, hk, rfl⟩ := mem_executingRows.mp hr
    · exact decode_error_rows h k
    · exact decode_sys_rows h hk
  · intro hrows
    cases h : decode w with
    | error e => exact .inl ⟨e, h⟩
    | ok i =>
      obtain ⟨hsel, hi⟩ := decode_ok_row h
      have hzero : i.rowIndex = 0 := by
        by_contra hne
        exact absurd hsel (by simpa using hrows i.row (mem_executingRows.mpr ⟨_, hne, rfl⟩))
      rw [hzero] at hi
      exact .inr ⟨fieldNNN w, by rw [h, hi]; rfl⟩

/-! ## A decoded word is the encoding of its instruction -/

/-- The operands are the fields of the word, and its row fixes the other fields: as numbers, the two words are the same. -/
theorem encode_of_decode {w : Word} {i : Instr} (h : decode w = .ok i) : encode i = w := by
  obtain ⟨hs, hi⟩ := decode_ok_row h
  apply BitVec.eq_of_toNat_eq
  cases i <;> simp only [Instr.row, Instr.rowIndex, rows_select_low, rows_select_high, decide_eq_true_eq] at hs <;>
    simp only [Instr.rowIndex, Instr.ofRow] at hi
  case cls | ret => exact hs.symm
  case sys nnn | jp nnn | call nnn | ldI nnn | jpV0 nnn =>
    injection hi with hnnn
    rw [encode, encodeNNN_toNat, hnnn, fieldNNN_toNat]
    simp
    omega
  case seByte x nn | sneByte x nn | ldByte x nn | addByte x nn | rnd x nn =>
    injection hi with hx hnn
    rw [encode, encodeXNN_toNat, hx, hnn, fieldX_val, fieldNN_toNat]
    simp
    omega
  case drw x y n =>
    injection hi with hx hy hn
    rw [encode, encodeXYN_toNat, hx, hy, hn, fieldX_val, fieldY_val, fieldN_val]
    simp
    omega
  case skp x | sknp x | ldVxDt x | ldVxK x | ldDtVx x | ldStVx x | addI x | ldF x | ldB x | ldMemVx x | ldVxMem x =>
    injection hi with hx
    rw [encode, encodeXNN_toNat, hx, fieldX_val]
    simp
    omega
  all_goals
    injection hi with hx hy
    rw [encode, encodeXYN_toNat, hx, hy, fieldX_val, fieldY_val]
    simp
    omega

theorem wf_of_decode {w : Word} {i : Instr} (h : decode w = .ok i) : i.wf = true := by
  cases i
  case sys nnn =>
    obtain ⟨-, hcls, hret⟩ := decode_sys h
    have henc : encodeNNN 0x0 nnn = w := encode_of_decode h
    simp only [Instr.wf, Bool.and_eq_true, bne_iff_ne]
    exact ⟨fun e => hcls (by rw [← henc, e]; rfl), fun e => hret (by rw [← henc, e]; rfl)⟩
  all_goals rfl

/-- Settles O2: each half is a law of the decoder. -/
theorem encodeDecodeRoundTrip : Obligations.EncodeDecodeRoundTrip :=
  fun _ _ h => ⟨wf_of_decode h, encode_of_decode h⟩

/-- Settles O5: ten closed words, evaluated. -/
theorem tableWordsDecode : Obligations.TableWordsDecode := by
  unfold Obligations.TableWordsDecode
  decide

end Sys2Proof
end

