-- ==== Sys2Proof/Proofs/Values.lean ====
section
/-! The values instructions derive from their operands, as numbers and bits, and what the updates that several instructions
share do to a state, each said once. -/

namespace Sys2Proof.Machine

variable {p : Params}

@[simp] theorem addrOperand_toNat (nnn : Addr12) : (addrOperand nnn).toNat = nnn.toNat :=
  BitVec.toNat_setWidth_of_le (by decide)

@[simp] theorem State.regWide_toNat (s : State p) (x : RegIx) : (s.regWide x).toNat = (s.reg x).toNat :=
  BitVec.toNat_setWidth_of_le (by decide)

theorem flagByte_decide (P : Prop) [Decidable P] : flagByte (decide P) = if P then 0x01#8 else 0x00#8 := by
  by_cases h : P <;> simp [flagByte, h]

theorem flagByte_eq_one_iff (b : Bool) : flagByte b = 0x01#8 ↔ b = true := by cases b <;> decide

theorem flagByte_toNat (b : Bool) : (flagByte b).toNat = b.toNat := by cases b <;> rfl

/-- A skip writes `pc` alone, by 4 if its condition holds, else by 2 (41_skips.md). -/
theorem State.skipIf_effect (s : State p) {c : Bool} {P : Prop} [Decidable P] (hc : c = true ↔ P) :
    s.skipIf c = { s with pc := (s.skipIf c).pc } ∧
      (s.skipIf c).pc.toNat = (s.pc.toNat + if P then 4 else 2) % 65536 := by
  refine ⟨rfl, ?_⟩
  rw [State.skipIf_pc, BitVec.toNat_add]
  by_cases h : P <;> simp [hc, h]

/-- A result and its flag written, then the advance: `VF` is the flag for every `x`, `V[x]` the result unless `x` is 15, no
other register and no other element changes (R62 (e), D8). -/
theorem State.setResultAndFlag_advance_effect (s : State p) (x : RegIx) (r : Byte) (b : Bool) :
    (s.setResultAndFlag x r b).advance.reg 15 = flagByte b ∧ (x ≠ 15 → (s.setResultAndFlag x r b).advance.reg x = r) ∧
      (∀ q, q ≠ x → q ≠ 15 → (s.setResultAndFlag x r b).advance.reg q = s.reg q) ∧
      (s.setResultAndFlag x r b).advance.pc.toNat = (s.pc.toNat + 2) % 65536 ∧
      (s.setResultAndFlag x r b).advance =
        { s with v := (s.setResultAndFlag x r b).advance.v, pc := (s.setResultAndFlag x r b).advance.pc } := by
  refine ⟨?flag, fun hx => ?result, fun q hq hf => ?others, ?pc, rfl⟩
  case flag => rw [State.advance_reg, State.setResultAndFlag_reg_flag]
  case result => rw [State.advance_reg, State.setResultAndFlag_reg_result s hx]
  case others => rw [State.advance_reg, State.setResultAndFlag_reg_ne s x r b hq hf]
  case pc => rw [State.advance_pc_toNat, State.setResultAndFlag_pc]

end Sys2Proof.Machine
end

