-- ==== Sys2Proof/Proofs/Outcomes.lean ====
section
/-! Everything an instruction can do, said once: the shape of the state it completes with (`Completes`), the conditions and the
error under which it faults (`Faults`), and that there is nothing else (`exec_cases`). -/

namespace Sys2Proof.Machine

/-! ## Instructions by what they write -/

/-- The six skips (41_skips.md, R72, R73). -/
inductive Skips : Instr → Prop where
  | seByte (x : RegIx) (nn : Byte) : Skips (.seByte x nn)
  | sneByte (x : RegIx) (nn : Byte) : Skips (.sneByte x nn)
  | seReg (x y : RegIx) : Skips (.seReg x y)
  | sneReg (x y : RegIx) : Skips (.sneReg x y)
  | skp (x : RegIx) : Skips (.skp x)
  | sknp (x : RegIx) : Skips (.sknp x)

/-- The instructions that write `V[x]` and no flag (R59 to R61, R63 to R66, R74; D9). -/
inductive WritesReg (x : RegIx) : Instr → Prop where
  | ldByte (nn : Byte) : WritesReg x (.ldByte x nn)
  | addByte (nn : Byte) : WritesReg x (.addByte x nn)
  | rnd (nn : Byte) : WritesReg x (.rnd x nn)
  | ldReg (y : RegIx) : WritesReg x (.ldReg x y)
  | orReg (y : RegIx) : WritesReg x (.orReg x y)
  | andReg (y : RegIx) : WritesReg x (.andReg x y)
  | xorReg (y : RegIx) : WritesReg x (.xorReg x y)
  | ldVxDt : WritesReg x (.ldVxDt x)

/-- The instructions that write `V[x]` and then a flag (R67 to R71). -/
inductive WritesRegAndFlag (x : RegIx) : Instr → Prop where
  | addReg (y : RegIx) : WritesRegAndFlag x (.addReg x y)
  | sub (y : RegIx) : WritesRegAndFlag x (.sub x y)
  | subn (y : RegIx) : WritesRegAndFlag x (.subn x y)
  | shr (y : RegIx) : WritesRegAndFlag x (.shr x y)
  | shl (y : RegIx) : WritesRegAndFlag x (.shl x y)

/-- The instructions that write `I` (R78 to R80). -/
inductive WritesIndex : Instr → Prop where
  | ldI (nnn : Addr12) : WritesIndex (.ldI nnn)
  | addI (x : RegIx) : WritesIndex (.addI x)
  | ldF (x : RegIx) : WritesIndex (.ldF x)

/-- The instructions that write memory (R81, R82). -/
inductive WritesMemory : Instr → Prop where
  | ldB (x : RegIx) : WritesMemory (.ldB x)
  | ldMemVx (x : RegIx) : WritesMemory (.ldMemVx x)

/-! ## Completion and fault -/

/-- The shapes of the states in which an instruction can complete from `s`. -/
inductive Completes (s : State) : Instr → State → Prop where
  | sys (nnn : Addr12) : Completes s (.sys nnn) (s.raiseUnsupported (addrOperand nnn))
  | cls : Completes s .cls (s.setFrame Framebuffer.blank).advance
  | ret (h : s.sp.val ≠ 0) : Completes s .ret (s.pop.setPc (s.top h + 2#16))
  | jp (nnn : Addr12) : Completes s (.jp nnn) (s.setPc (addrOperand nnn))
  | call (nnn : Addr12) (h : s.sp.val < Config.params.stackDepth) :
      Completes s (.call nnn) ((s.pushPc h).setPc (addrOperand nnn))
  | jpV0 (nnn : Addr12) : Completes s (.jpV0 nnn) (s.setPc (addrOperand nnn + s.regWide 0))
  | skip {i : Instr} (hi : Skips i) (taken : Bool) : Completes s i (s.skipIf taken)
  | setReg {i : Instr} {x : RegIx} (hi : WritesReg x i) (b : Byte) : Completes s i (s.setReg x b).advance
  | setRegAndFlag {i : Instr} {x : RegIx} (hi : WritesRegAndFlag x i) (r : Byte) (flag : Bool) :
      Completes s i (s.setResultAndFlag x r flag).advance
  | drw (x y : RegIx) (n : Rows) (fb : Framebuffer) (flag : Bool) :
      Completes s (.drw x y n) ((s.setFrame fb).setFlag flag).advance
  | awaitKey (x : RegIx) : Completes s (.ldVxK x) s.awaitKey.advance
  | setDt (x : RegIx) (b : Byte) : Completes s (.ldDtVx x) (s.setDt b).advance
  | setSt (x : RegIx) (b : Byte) : Completes s (.ldStVx x) (s.setSt b).advance
  | setI {i : Instr} (hi : WritesIndex i) (w : Word) : Completes s i (s.setI w).advance
  | store {i : Instr} (hi : WritesMemory i) {bs : List Byte} (hb : s.base + bs.length ≤ 0x1000) :
      Completes s i (s.setMem (s.mem.writeBytes Config.params.font s.base bs)).advance
  | load (x : RegIx) {bs : List Byte} (hb : bs.length = x.val + 1) : Completes s (.ldVxMem x) (s.setRegs bs).advance

/-- The errors an instruction can end in from `s`, each under its condition (R89 to R91). -/
inductive Faults (s : State) : Instr → Fault → Prop where
  | underflow (h : s.sp.val = 0) : Faults s .ret (.stackUnderflow s.pc)
  | overflow (nnn : Addr12) (h : s.sp.val = Config.stackDepth) : Faults s (.call nnn) (.stackOverflow s.pc)
  | ldB (x : RegIx) (h : 0xFFF < s.base + 2) : Faults s (.ldB x) (.addressError (max s.base 0x1000))
  | ldMemVx (x : RegIx) (h : 0xFFF < s.base + x.val) : Faults s (.ldMemVx x) (.addressError (max s.base 0x1000))
  | ldVxMem (x : RegIx) (h : 0xFFF < s.base + x.val) : Faults s (.ldVxMem x) (.addressError (max s.base 0x1000))
  | drw (x y : RegIx) (n : Rows) (hn : n.val ≠ 0) (h : 0xFFF < s.base + n.val - 1) :
      Faults s (.drw x y n) (.addressError (max s.base 0x1000))

/-- An outcome that completes as `Completes` says or faults as `Faults` says, and refuses nothing. -/
def Listed (s : State) (i : Instr) : StepOutcome → Prop
  | .next t => Completes s i t
  | .fault f => Faults s i f
  | .refused _ => False

theorem listed_ret (s : State) : Listed s .ret (exec .ret s) := by
  by_cases h : s.sp.val = 0
  · rw [show exec .ret s = _ from execRet_empty h]
    exact .underflow h
  · rw [show exec .ret s = _ from execRet_of_ne h]
    exact .ret h

theorem listed_call (nnn : Addr12) (s : State) : Listed s (.call nnn) (exec (.call nnn) s) := by
  by_cases h : s.sp.val < Config.params.stackDepth
  · rw [show exec (.call nnn) s = _ from execCall_of_lt nnn h]
    exact .call nnn h
  · have hfull : s.sp.val = Config.params.stackDepth := by omega
    rw [show exec (.call nnn) s = _ from execCall_full nnn hfull]
    exact .overflow nnn hfull

theorem listed_ldB (x : RegIx) (s : State) : Listed s (.ldB x) (exec (.ldB x) s) := by
  have hlen := bcdDigits_length (s.reg x)
  rcases s.storeAtIndex_cases (bs := bcdDigits (s.reg x)) (by omega) with ⟨h, e⟩ | ⟨h, e⟩ <;>
    rw [show exec (.ldB x) s = _ from e]
  · exact .store (.ldB x) h
  · exact .ldB x (by omega)

theorem listed_ldMemVx (x : RegIx) (s : State) : Listed s (.ldMemVx x) (exec (.ldMemVx x) s) := by
  have hlen := s.regsUpTo_length x
  rcases s.storeAtIndex_cases (bs := s.regsUpTo x) (by omega) with ⟨h, e⟩ | ⟨h, e⟩ <;>
    rw [show exec (.ldMemVx x) s = _ from e]
  · exact .store (.ldMemVx x) h
  · exact .ldMemVx x (by omega)

theorem listed_ldVxMem (x : RegIx) (s : State) : Listed s (.ldVxMem x) (exec (.ldVxMem x) s) := by
  rcases execLdVxMem_cases x s with ⟨h, e⟩ | ⟨h, e⟩ <;> rw [show exec (.ldVxMem x) s = _ from e]
  · exact .load x (by simp)
  · exact .ldVxMem x (by omega)

theorem listed_drw (x y : RegIx) (n : Rows) (s : State) : Listed s (.drw x y n) (exec (.drw x y n) s) := by
  rcases execDrwUnder_cases Config.drawEdge x y n s with ⟨-, e⟩ | ⟨⟨hn, h⟩, e⟩ <;>
    rw [show exec (.drw x y n) s = _ from e]
  · exact .drw x y n _ _
  · exact .drw x y n hn (by omega)

/-- Everything an instruction can do. -/
theorem listed_exec (i : Instr) (s : State) : Listed s i (exec i s) := by
  cases i
  case sys nnn =>
    rw [show exec (.sys nnn) s = _ from execSys_eq nnn s]
    exact .sys nnn
  case cls => exact .cls
  case ret => exact listed_ret s
  case jp nnn => exact .jp nnn
  case call nnn => exact listed_call nnn s
  case seByte x nn => exact .skip (.seByte x nn) _
  case sneByte x nn => exact .skip (.sneByte x nn) _
  case seReg x y => exact .skip (.seReg x y) _
  case ldByte x nn => exact .setReg (.ldByte nn) _
  case addByte x nn => exact .setReg (.addByte nn) _
  case ldReg x y => exact .setReg (.ldReg y) _
  case orReg x y => exact .setReg (.orReg y) _
  case andReg x y => exact .setReg (.andReg y) _
  case xorReg x y => exact .setReg (.xorReg y) _
  case addReg x y => exact .setRegAndFlag (.addReg y) _ _
  case sub x y => exact .setRegAndFlag (.sub y) _ _
  case shr x y => exact .setRegAndFlag (.shr y) _ _
  case subn x y => exact .setRegAndFlag (.subn y) _ _
  case shl x y => exact .setRegAndFlag (.shl y) _ _
  case sneReg x y => exact .skip (.sneReg x y) _
  case ldI nnn => exact .setI (.ldI nnn) _
  case jpV0 nnn => exact .jpV0 nnn
  case rnd x nn => exact .setReg (.rnd nn) _
  case drw x y n => exact listed_drw x y n s
  case skp x => exact .skip (.skp x) _
  case sknp x => exact .skip (.sknp x) _
  case ldVxDt x => exact .setReg .ldVxDt _
  case ldVxK x => exact .awaitKey x
  case ldDtVx x => exact .setDt x _
  case ldStVx x => exact .setSt x _
  case addI x => exact .setI (.addI x) _
  case ldF x => exact .setI (.ldF x) _
  case ldB x => exact listed_ldB x s
  case ldMemVx x => exact listed_ldMemVx x s
  case ldVxMem x => exact listed_ldVxMem x s

theorem completes_of_exec {i : Instr} {s t : State} (h : exec i s = .next t) : Completes s i t := by
  have hl := listed_exec i s
  rwa [h] at hl

theorem faults_of_exec {i : Instr} {s : State} {f : Fault} (h : exec i s = .fault f) : Faults s i f := by
  have hl := listed_exec i s
  rwa [h] at hl

theorem exec_ne_refused (i : Instr) (s : State) (r : Refusal) : exec i s ≠ .refused r := by
  intro h
  have hl := listed_exec i s
  rwa [h] at hl

/-- The conditions of `Faults` are also sufficient: under one of them the instruction does end in its error. -/
theorem exec_of_faults {i : Instr} {s : State} {f : Fault} (h : Faults s i f) : exec i s = .fault f := by
  cases h with
  | underflow h => exact execRet_empty h
  | overflow nnn h => exact execCall_full nnn h
  | ldB x h =>
    have hlen := bcdDigits_length (s.reg x)
    exact ((s.storeAtIndex_cases (bs := bcdDigits (s.reg x)) (by omega)).resolve_left (by omega)).2
  | ldMemVx x h =>
    have hlen := s.regsUpTo_length x
    exact ((s.storeAtIndex_cases (bs := s.regsUpTo x) (by omega)).resolve_left (by omega)).2
  | ldVxMem x h => exact ((execLdVxMem_cases x s).resolve_left (by omega)).2
  | drw x y n hn h => exact ((execDrwUnder_cases Config.drawEdge x y n s).resolve_left (by omega)).2

/-- The conditions read `SP`, `pc` and `I` alone. -/
theorem Faults.of_same {i : Instr} {s t : State} {f : Fault} (h : Faults s i f) (hsp : t.sp = s.sp) (hpc : t.pc = s.pc)
    (hi : t.i = s.i) : Faults t i f := by
  have hbase : t.base = s.base := congrArg BitVec.toNat hi
  cases h with
  | underflow h => exact hpc ▸ .underflow (by rw [hsp, h])
  | overflow nnn h => exact hpc ▸ .overflow nnn (by rw [hsp, h])
  | ldB x h => exact hbase ▸ .ldB x (by rw [hbase]; exact h)
  | ldMemVx x h => exact hbase ▸ .ldMemVx x (by rw [hbase]; exact h)
  | ldVxMem x h => exact hbase ▸ .ldVxMem x (by rw [hbase]; exact h)
  | drw x y n hn h => exact hbase ▸ .drw x y n hn (by rw [hbase]; exact h)

/-- Settles O10: the list of `Faults`, and nothing is refused. -/
theorem errorsArriveOnlyAsListed : Obligations.ErrorsArriveOnlyAsListed := by
  intro i s
  refine ⟨exec_ne_refused i s, fun f h => ?_⟩
  cases faults_of_exec h with
  | underflow hsp => exact .inl ⟨rfl, hsp, rfl⟩
  | overflow nnn hsp => exact .inr (.inl ⟨nnn, rfl, hsp, rfl⟩)
  | ldB x hout => exact .inr (.inr ⟨.inl ⟨x, rfl, hout⟩, rfl⟩)
  | ldMemVx x hout => exact .inr (.inr ⟨.inr (.inl ⟨x, .inl rfl, hout⟩), rfl⟩)
  | ldVxMem x hout => exact .inr (.inr ⟨.inr (.inl ⟨x, .inr rfl, hout⟩), rfl⟩)
  | drw x y n hn hout => exact .inr (.inr ⟨.inr (.inr ⟨x, y, n, rfl, hn, hout⟩), rfl⟩)

end Sys2Proof.Machine
end

