-- ==== Sys2Proof/Proofs/Writers.lean ====
section
/-! The whole-machine rules: which instruction can change which element. Each is read off the shapes of `Completes`; every shape
but those named leaves the element as it was, by the laws of the updates. -/

namespace Sys2Proof.Machine

variable {i : Instr} {s t : State}

/-- Only a store at `I` changes memory. -/
theorem Completes.mem_changed (h : Completes s i t) (hne : t.mem ≠ s.mem) : WritesMemory i := by
  cases h
  case store hi => exact hi
  all_goals simp at hne

theorem Completes.fb_changed (h : Completes s i t) (hne : t.fb ≠ s.fb) :
    t.drawReady = true ∧ (i = .cls ∨ ∃ x y n, i = .drw x y n) := by
  cases h
  case cls => exact ⟨rfl, .inl rfl⟩
  case drw x y n fb flag => exact ⟨rfl, .inr ⟨x, y, n, rfl⟩⟩
  all_goals simp at hne

theorem Completes.drawReady_changed (h : Completes s i t) (hne : t.drawReady ≠ s.drawReady) : t.drawReady = true := by
  cases h
  case cls | drw => rfl
  all_goals simp at hne

/-- Settles O42. -/
theorem writersOfMemoryAndFrame : Obligations.WritersOfMemoryAndFrame := by
  intro i s t h
  have hc := completes_of_exec h
  refine ⟨fun hne => ?_, hc.fb_changed, hc.drawReady_changed⟩
  cases hc.mem_changed hne with
  | ldB x => exact .inl ⟨x, rfl⟩
  | ldMemVx x => exact .inr ⟨x, rfl⟩

theorem Completes.latch_eq (h : Completes s i t) : t.latch = s.latch := by cases h <;> simp

theorem Completes.keyWait_changed (h : Completes s i t) (hne : t.keyWait ≠ s.keyWait) :
    t.keyWait = true ∧ ∃ x, i = .ldVxK x := by
  cases h
  case awaitKey x => exact ⟨rfl, x, rfl⟩
  all_goals simp at hne

theorem Completes.dt_changed (h : Completes s i t) (hne : t.dt ≠ s.dt) : ∃ x, i = .ldDtVx x := by
  cases h
  case setDt x b => exact ⟨x, rfl⟩
  all_goals simp at hne

theorem Completes.st_changed (h : Completes s i t) (hne : t.st ≠ s.st) : ∃ x, i = .ldStVx x := by
  cases h
  case setSt x b => exact ⟨x, rfl⟩
  all_goals simp at hne

theorem Completes.i_changed (h : Completes s i t) (hne : t.i ≠ s.i) : WritesIndex i := by
  cases h
  case setI hi => exact hi
  all_goals simp at hne

theorem Completes.stack_changed (h : Completes s i t) (hne : t.stack ≠ s.stack) : ∃ nnn, i = .call nnn := by
  cases h
  case call nnn _ => exact ⟨nnn, rfl⟩
  all_goals simp at hne

theorem Completes.sp_changed (h : Completes s i t) (hne : t.sp ≠ s.sp) :
    (t.sp.val = s.sp.val + 1 ∧ ∃ nnn, i = .call nnn) ∨ (t.sp.val + 1 = s.sp.val ∧ i = .ret) := by
  cases h
  case call nnn _ => exact .inl ⟨rfl, nnn, rfl⟩
  case ret hsp => exact .inr ⟨Nat.succ_pred_eq_of_ne_zero hsp, rfl⟩
  all_goals simp at hne

/-- Settles O43, element by element. -/
theorem writersOfEachElement : Obligations.WritersOfEachElement := by
  intro i s t h
  have hc := completes_of_exec h
  refine ⟨hc.latch_eq, hc.keyWait_changed, hc.dt_changed, hc.st_changed, fun hne => ?_, hc.stack_changed, hc.sp_changed⟩
  cases hc.i_changed hne with
  | ldI nnn => exact .inl ⟨nnn, rfl⟩
  | addI x => exact .inr (.inl ⟨x, rfl⟩)
  | ldF x => exact .inr (.inr ⟨x, rfl⟩)

/-- `VF` changes as a flag, or as the destination `V[15]` of a register write or of a load that reaches it. -/
theorem Completes.flag_changed (h : Completes s i t) (hne : t.reg 15 ≠ s.reg 15) :
    (∃ x, WritesRegAndFlag x i) ∨ (∃ x y n, i = .drw x y n) ∨ WritesReg 15 i ∨ i = .ldVxMem 15 := by
  cases h
  case setRegAndFlag x _ _ hi => exact .inl ⟨x, hi⟩
  case drw x y n _ _ => exact .inr (.inl ⟨x, y, n, rfl⟩)
  case setReg x b hi =>
    obtain rfl : 15 = x := by
      by_contra hx
      exact hne (State.setReg_reg_ne s x b hx)
    exact .inr (.inr (.inl hi))
  case load x bs hb =>
    obtain rfl : x = 15 := by
      by_contra hx
      have hlt : x.val + 1 ≤ 15 := by have := Fin.val_ne_of_ne hx; omega
      have hshort : bs[(15 : RegIx).val]? = none := List.getElem?_eq_none (by rw [hb]; exact hlt)
      exact hne (by rw [State.advance_reg, State.setRegs_reg, hshort, Option.getD_none])
    exact .inr (.inr (.inr rfl))
  all_goals simp at hne

/-- Settles O44: the instructions of each group, named. -/
theorem writersOfTheFlagRegister : Obligations.WritersOfTheFlagRegister := by
  intro i s t h hne
  rcases (completes_of_exec h).flag_changed hne with ⟨x, hi⟩ | hdrw | hi | hload
  · left
    cases hi with
    | addReg y => exact ⟨x, y, .inl rfl⟩
    | sub y => exact ⟨x, y, .inr (.inl rfl)⟩
    | subn y => exact ⟨x, y, .inr (.inr (.inl rfl))⟩
    | shr y => exact ⟨x, y, .inr (.inr (.inr (.inl rfl)))⟩
    | shl y => exact ⟨x, y, .inr (.inr (.inr (.inr rfl)))⟩
  · exact .inr (.inl hdrw)
  · right; right
    cases hi with
    | ldByte nn => exact .inl ⟨nn, .inl rfl⟩
    | addByte nn => exact .inl ⟨nn, .inr (.inl rfl)⟩
    | rnd nn => exact .inl ⟨nn, .inr (.inr rfl)⟩
    | ldReg y => exact .inr (.inl ⟨y, .inl rfl⟩)
    | orReg y => exact .inr (.inl ⟨y, .inr (.inl rfl)⟩)
    | andReg y => exact .inr (.inl ⟨y, .inr (.inr (.inl rfl))⟩)
    | xorReg y => exact .inr (.inl ⟨y, .inr (.inr (.inr rfl))⟩)
    | ldVxDt => exact .inr (.inr (.inl rfl))
  · exact .inr (.inr (.inr (.inr (.inr hload))))

/-- The targets of the four transfers (40_control_flow.md). -/
inductive Transfers (s : State) : Instr → Word → Prop where
  | ret (h : s.sp.val ≠ 0) : Transfers s .ret (s.top h + 2#16)
  | jp (nnn : Addr12) : Transfers s (.jp nnn) (addrOperand nnn)
  | call (nnn : Addr12) : Transfers s (.call nnn) (addrOperand nnn)
  | jpV0 (nnn : Addr12) : Transfers s (.jpV0 nnn) (addrOperand nnn + s.regWide 0)

/-- Where `pc` can go (R14). -/
theorem Completes.pc_cases (h : Completes s i t) :
    t.pc = s.pc + 2#16 ∨ (t.pc = s.pc + 4#16 ∧ Skips i) ∨ Transfers s i t.pc := by
  cases h
  case ret h => exact .inr (.inr (.ret h))
  case jp nnn => exact .inr (.inr (.jp nnn))
  case call nnn h => exact .inr (.inr (.call nnn))
  case jpV0 nnn => exact .inr (.inr (.jpV0 nnn))
  case skip taken hi =>
    cases taken with
    | true => exact .inr (.inl ⟨rfl, hi⟩)
    | false => exact .inl rfl
  all_goals simp

/-- Settles O45. -/
theorem pcAdvancesByTwoOrFour : Obligations.PcAdvancesByTwoOrFour := by
  intro i s t h
  rcases (completes_of_exec h).pc_cases with hpc | ⟨hpc, hskip⟩ | htransfer
  · exact .inl hpc
  · refine .inr (.inl ⟨hpc, ?_⟩)
    cases hskip with
    | seByte x nn => exact ⟨x, 0, nn, .inl rfl⟩
    | sneByte x nn => exact ⟨x, 0, nn, .inr (.inl rfl)⟩
    | seReg x y => exact ⟨x, y, 0, .inr (.inr (.inl rfl))⟩
    | sneReg x y => exact ⟨x, y, 0, .inr (.inr (.inr (.inl rfl)))⟩
    | skp x => exact ⟨x, 0, 0, .inr (.inr (.inr (.inr (.inl rfl))))⟩
    | sknp x => exact ⟨x, 0, 0, .inr (.inr (.inr (.inr (.inr rfl))))⟩
  · right; right
    generalize t.pc = target at htransfer
    cases htransfer with
    | ret => exact .inl rfl
    | jp nnn => exact .inr ⟨nnn, .inl rfl⟩
    | call nnn => exact .inr ⟨nnn, .inr (.inl rfl)⟩
    | jpV0 nnn => exact .inr ⟨nnn, .inr (.inr rfl)⟩

/-! ## The random byte -/

/-- An outcome with another random byte in the next state. -/
def withRnd (rnd : Byte) : StepOutcome → StepOutcome
  | .next t => .next { t with rnd := rnd }
  | .fault f => .fault f
  | .refused r => .refused r

theorem State.storeAtIndex_withRnd (s : State) (bs : List Byte) (rnd : Byte) :
    State.storeAtIndex { s with rnd := rnd } bs = withRnd rnd (s.storeAtIndex bs) := by
  simp only [State.storeAtIndex, State.base]
  split <;> rfl

/-- An instruction other than `RND` does not read the random byte: it carries it through. -/
theorem exec_withRnd (hi : ∀ x nn, i ≠ .rnd x nn) (s : State) (rnd : Byte) :
    exec i { s with rnd := rnd } = withRnd rnd (exec i s) := by
  cases i
  case rnd x nn => exact absurd rfl (hi x nn)
  case ret =>
    simp only [exec, execRet]
    split <;> rfl
  case call nnn =>
    simp only [exec, execCall]
    split <;> rfl
  case ldB x | ldMemVx x => exact s.storeAtIndex_withRnd _ rnd
  case ldVxMem x =>
    simp only [exec, execLdVxMem, State.base]
    split <;> rfl
  case drw x y n =>
    simp only [exec, execDrw, execDrwUnder, State.base]
    split <;> rfl
  all_goals rfl

/-- Settles O22. -/
theorem onlyRndReadsTheRandomByte : Obligations.OnlyRndReadsTheRandomByte := by
  intro i s rnd hi
  refine ⟨fun t h => ?_, fun f h => ?_⟩ <;> rw [exec_withRnd hi, h] <;> rfl

end Sys2Proof.Machine
end

