-- ==== Sys2Proof/Proofs/Steps.lean ====
section
/-! The step procedure and its errors (60_exceptions.md sections 1, 2, 4): what a `Step` that answers a next state did, and what
makes it fault. -/

namespace Sys2Proof.Machine

variable {rnd : Byte} {s t : State} {f : Fault}

/-- The fetch of a state whose `pc` is at most 0xFFE, by the name of the word. -/
theorem State.fetch_wordAtPc (h : s.pc.toNat ≤ 0xFFE) : s.fetch = .ok s.wordAtPc := State.fetch_ok h

/-- A fetch that completes gave the word at a `pc` of at most 0xFFE. -/
theorem State.fetch_eq_ok {w : Word} (h : s.fetch = .ok w) : s.pc.toNat ≤ 0xFFE ∧ w = s.wordAtPc := by
  have hpc : s.pc.toNat ≤ 0xFFE := Memory.fetchWord_le h
  rw [State.fetch_wordAtPc hpc] at h
  exact ⟨hpc, (Except.ok.inj h).symm⟩

/-- Settles O6 by the law of a `Step` whose word decodes; `step` is that `Step` after it has counted its draw. -/
theorem stepRunsDecodedInstruction : Obligations.StepRunsDecodedInstruction := by
  intro s i hk hpc hd
  exact ⟨fun rnd => stepWith_decoded rnd hk (State.fetch_wordAtPc hpc) hd,
    stepWith_decoded (s := s.countDraw) (Config.rnd s.draws) hk (State.fetch_wordAtPc hpc) hd⟩

/-- The word that decodes to `SYS nnn` is the one `SYS nnn` reports. -/
theorem addrOperand_of_decode_sys {w : Word} {nnn : Addr12} (h : decode w = .ok (.sys nnn)) : addrOperand nnn = w := by
  rw [← encodeUnder_sys, show encodeUnder Config.params.numerals _ = _ from encodeUnder_numerals (.sys nnn)]
  exact encode_of_decode h

/-- Both kinds of unsupported word end the `Step` alike (R46, R50, R88). -/
theorem stepWith_of_unsupported (hk : s.keyWait = false) (hpc : s.pc.toNat ≤ 0xFFE) (hu : Unsupported s.wordAtPc) :
    stepWith rnd s = .next ((s.beginStep rnd).raiseUnsupported s.wordAtPc) := by
  have hfetch := State.fetch_wordAtPc hpc
  rcases hu with ⟨e, hd⟩ | ⟨nnn, hd⟩
  · exact stepWith_unsupported rnd hk hfetch hd
  · rw [stepWith_decoded rnd hk hfetch hd, ← addrOperand_of_decode_sys hd]
    exact execSys_eq nnn (s.beginStep rnd)

/-- Settles O7. -/
theorem unsupportedWordAdvancesPcOnly : Obligations.UnsupportedWordAdvancesPcOnly := by
  intro rnd s hk hpc hu
  have hstep := stepWith_of_unsupported (rnd := rnd) hk hpc hu
  refine ⟨_, hstep, s.advance_pc_toNat, rfl, ?_⟩
  rw [applyEvent_step, hstep]
  rfl

/-- Settles O8: the gate, for the `Step` and for `step`, which counts a draw first. -/
theorem heldStepChangesNothing : Obligations.HeldStepChangesNothing := by
  intro rnd s hk
  have hstep := stepWith_held rnd hk
  refine ⟨⟨s.holdStep, hstep, rfl, ?_⟩, s.countDraw.holdStep, stepWith_held _ (s := s.countDraw) hk, rfl⟩
  rw [applyEvent_step, hstep]
  rfl

/-- Settles O9: the lowest address above 0xFFF of the two is `pc`, but for `pc` = 0xFFF. -/
theorem fetchBeyondMemoryFaults : Obligations.FetchBeyondMemoryFaults := by
  intro rnd s hk hpc
  have haddr : max s.pc.toNat 4096 = if 0xFFF < s.pc.toNat then s.pc.toNat else s.pc.toNat + 1 := by
    split <;> omega
  rw [stepWith_fetch_error rnd hk (State.fetch_error hpc), haddr]

/-- Settles O11: the event of a `Step` that faults keeps the state it began in. -/
theorem fatalErrorChangesNothing : Obligations.FatalErrorChangesNothing := by
  intro rnd s f h
  rw [applyEvent_step, h]
  rfl

/-- Settles O48: the jump writes into `pc` what it holds. -/
theorem terminalStateStays : Obligations.TerminalStateStays := by
  rintro rnd s ⟨hk, w, nnn, hfetch, hd, hself⟩
  have htarget : addrOperand nnn = s.pc := by
    apply BitVec.eq_of_toNat_eq
    rw [addrOperand_toNat, hself]
  have hstep : stepWith rnd s = .next ((s.beginStep rnd).setPc (addrOperand nnn)) := stepWith_decoded rnd hk hfetch hd
  rw [htarget] at hstep
  exact ⟨_, hstep, rfl⟩

/-! ## What a `Step` did -/

/-- A `Step` that answered a next state was held, or met a word that selects no row, or ran an instruction that completed. -/
inductive Stepped (rnd : Byte) (s : State) : State → Prop where
  | held (hk : s.keyWait = true) : Stepped rnd s s.holdStep
  | rejected (hk : s.keyWait = false) (hpc : s.pc.toNat ≤ 0xFFE) :
      Stepped rnd s ((s.beginStep rnd).raiseUnsupported s.wordAtPc)
  | ran {i : Instr} {t : State} (hk : s.keyWait = false) (hpc : s.pc.toNat ≤ 0xFFE) (hd : decode s.wordAtPc = .ok i)
      (hc : Completes (s.beginStep rnd) i t) : Stepped rnd s t

theorem stepped_of_stepWith (h : stepWith rnd s = .next t) : Stepped rnd s t := by
  rcases stepWith_cases rnd s with ⟨hk, e⟩ | ⟨-, f, -, e⟩ | ⟨hk, w, r, hf, -, e⟩ | ⟨hk, w, i, hf, hd, e⟩ <;> rw [e] at h
  · cases h
    exact .held hk
  · cases h
  · cases h
    obtain ⟨hpc, rfl⟩ := State.fetch_eq_ok hf
    exact .rejected hk hpc
  · obtain ⟨hpc, rfl⟩ := State.fetch_eq_ok hf
    exact .ran hk hpc hd (completes_of_exec h)

/-- The event of a `Step` ends in the next state it answered, or where it began. -/
theorem applyEvent_step_cases (rnd : Byte) (s : State) :
    Stepped rnd s (applyEvent (.step rnd) s).1 ∨ (applyEvent (.step rnd) s).1 = s := by
  rw [applyEvent_step]
  cases h : stepWith rnd s with
  | next t => exact .inl (stepped_of_stepWith h)
  | fault f => exact .inr rfl
  | refused r => exact .inr rfl

/-- The shape of every claim about a run: what each event keeps, the whole sequence keeps. -/
theorem runEvents_induction {P : State → Prop} {es : List Event} (hs : P s)
    (hkeep : ∀ e ∈ es, ∀ u, P u → P (applyEvent e u).1) : P (runEvents es s) := by
  induction es generalizing s with
  | nil => exact hs
  | cons e es ih =>
    exact ih (hkeep e List.mem_cons_self s hs) fun e' he' => hkeep e' (List.mem_cons_of_mem e he')

/-! ## A fatal error persists (R95) -/

/-- `t` agrees with `s` in all that decides whether a `Step` faults. -/
structure SameControl (s t : State) : Prop where
  keyWait : t.keyWait = s.keyWait
  mem : t.mem = s.mem
  i : t.i = s.i
  pc : t.pc = s.pc
  sp : t.sp = s.sp

/-- A `Step` faults in its fetch or in its instruction; neither reads the random byte. -/
theorem stepWith_fault_cases (h : stepWith rnd s = .fault f) :
    s.keyWait = false ∧ (s.fetch = .error f ∨ ∃ w i, s.fetch = .ok w ∧ decode w = .ok i ∧ Faults s i f) := by
  rcases stepWith_cases rnd s with ⟨-, e⟩ | ⟨hk, f', hf, e⟩ | ⟨-, w, r, -, -, e⟩ | ⟨hk, w, i, hf, hd, e⟩ <;> rw [e] at h
  · cases h
  · cases h
    exact ⟨hk, .inl hf⟩
  · cases h
  · exact ⟨hk, .inr ⟨w, i, hf, hd, (faults_of_exec h).of_same (t := s) rfl rfl rfl⟩⟩

theorem stepWith_fault_of_same (h : stepWith rnd s = .fault f) (hsame : SameControl s t) (rnd' : Byte) :
    stepWith rnd' t = .fault f := by
  obtain ⟨hk, hfault⟩ := stepWith_fault_cases h
  have hfetch : t.fetch = s.fetch := by rw [State.fetch, hsame.mem, hsame.pc, State.fetch]
  rw [← hsame.keyWait] at hk
  rw [← hfetch] at hfault
  rcases hfault with hf | ⟨w, i, hf, hd, hi⟩
  · exact stepWith_fetch_error rnd' hk hf
  · rw [stepWith_decoded rnd' hk hf hd]
    exact exec_of_faults (hi.of_same hsame.sp hsame.pc hsame.i)

/-- Where a `Step` faults, every event but `Reset` and `Load` leaves what decides it as it was. -/
theorem sameControl_of_fault (h : stepWith rnd s = .fault f) (e : Event) (hreset : e ≠ .reset)
    (hload : ∀ bytes, e ≠ .load bytes) : SameControl s (applyEvent e s).1 := by
  cases e with
  | reset => exact absurd rfl hreset
  | load bytes => exact absurd rfl (hload bytes)
  | step rnd' =>
    rw [applyEvent_step, stepWith_fault_of_same h ⟨rfl, rfl, rfl, rfl, rfl⟩ rnd']
    exact ⟨rfl, rfl, rfl, rfl, rfl⟩
  | keyDown k => exact ⟨(stepWith_fault_cases h).1.symm, rfl, rfl, rfl, rfl⟩
  | tick | keyUp | frameQuery | frameConsume => exact ⟨rfl, rfl, rfl, rfl, rfl⟩

/-- Settles O12: each event keeps "every `Step` faults with `f`", so every run of such events does. -/
theorem fatalErrorPersists : Obligations.FatalErrorPersists := by
  intro rnd s f h es hes
  refine runEvents_induction (P := fun u => ∀ rnd', stepWith rnd' u = .fault f) ?start ?keep
  case start => exact stepWith_fault_of_same h ⟨rfl, rfl, rfl, rfl, rfl⟩
  case keep =>
    intro e he u hu
    obtain ⟨hreset, hload⟩ := hes e he
    exact stepWith_fault_of_same (hu rnd) (sameControl_of_fault (hu rnd) e hreset hload)

end Sys2Proof.Machine
end

