-- ==== Sys2Proof/Proofs/Modes.lean ====
section
/-! The two modes (R97) and the wait for a key (R99, R108). -/

namespace Sys2Proof.Machine

theorem State.mode_awaitingKey_iff {s : State} : s.mode = .awaitingKey ↔ s.keyWait = true := by
  cases h : s.keyWait <;> simp [State.mode, h]

theorem State.mode_running_iff {s : State} : s.mode = .running ↔ s.keyWait = false := by
  cases h : s.keyWait <;> simp [State.mode, h]

theorem keyWait_applyEvent_load (bytes : List Byte) (s : State) : (applyEvent (.load bytes) s).1.keyWait = s.keyWait := by
  by_cases hb : bytes.length ≤ Config.romMax
  · rw [applyEvent_load hb, State.loaded_keyWait]
  · rw [applyEvent_load_too_large (by omega)]

/-- Of the events, only `Reset` and `KeyDown` end a wait. -/
theorem keyWait_ended {e : Event} {s : State} (hk : s.keyWait = true) (hk' : (applyEvent e s).1.keyWait = false) :
    e = .reset ∨ ∃ k, e = .keyDown k := by
  have hsame : (applyEvent e s).1.keyWait ≠ s.keyWait := by rw [hk, hk']; decide
  cases e with
  | reset => exact .inl rfl
  | keyDown k => exact .inr ⟨k, rfl⟩
  | step rnd =>
    rw [applyEvent_step, stepWith_held rnd hk] at hsame
    exact absurd rfl hsame
  | load bytes => exact absurd (keyWait_applyEvent_load bytes s) hsame
  | tick | keyUp | frameQuery | frameConsume => exact absurd rfl hsame

/-- Only a `Step` that executes `LD Vx, K` begins a wait. -/
theorem keyWait_begun {e : Event} {s : State} (hk : s.keyWait = false) (hk' : (applyEvent e s).1.keyWait = true) :
    (∃ rnd, e = .step rnd) ∧ ∃ x, decode s.wordAtPc = .ok (.ldVxK x) := by
  have hsame : (applyEvent e s).1.keyWait ≠ s.keyWait := by rw [hk, hk']; decide
  cases e with
  | step rnd =>
    refine ⟨⟨rnd, rfl⟩, ?_⟩
    rcases applyEvent_step_cases rnd s with hstep | hstep
    · generalize (applyEvent (.step rnd) s).1 = t at hstep hsame
      cases hstep with
      | held _ => exact absurd rfl hsame
      | rejected _ _ => exact absurd rfl hsame
      | ran _ _ hd hc =>
        obtain ⟨-, x, rfl⟩ := hc.keyWait_changed hsame
        exact ⟨x, hd⟩
    · exact absurd (congrArg State.keyWait hstep) hsame
  | load bytes => exact absurd (keyWait_applyEvent_load bytes s) hsame
  | reset | keyDown k => cases hk'
  | tick | keyUp | frameQuery | frameConsume => exact absurd rfl hsame

/-- Settles O46. -/
theorem modeChangesOnlyAsListed : Obligations.ModeChangesOnlyAsListed := by
  intro e s
  simp only [State.mode_awaitingKey_iff, State.mode_running_iff]
  exact ⟨keyWait_ended, keyWait_begun⟩

/-- `t` is `s` but for what may change while the machine waits. -/
def WaitsOn (s t : State) : Prop :=
  t = { s with dt := t.dt, st := t.st, latch := t.latch, drawReady := t.drawReady, report := t.report }

theorem WaitsOn.trans {s t u : State} (hst : WaitsOn s t) (htu : WaitsOn t u) : WaitsOn s u := by
  unfold WaitsOn at htu
  rw [hst] at htu
  exact htu

theorem WaitsOn.keyWait_eq {s t : State} (h : WaitsOn s t) : t.keyWait = s.keyWait := by rw [h]

/-- A `Step` is held, and the other events write only elements that `WaitsOn` leaves free. -/
theorem waitsOn_applyEvent {s : State} (hk : s.keyWait = true) {e : Event} (hreset : e ≠ .reset)
    (hkey : ∀ k, e ≠ .keyDown k) (hload : ∀ bytes, e ≠ .load bytes) : WaitsOn s (applyEvent e s).1 := by
  cases e with
  | reset => exact absurd rfl hreset
  | load bytes => exact absurd rfl (hload bytes)
  | keyDown k => exact absurd rfl (hkey k)
  | step rnd =>
    rw [applyEvent_step, stepWith_held rnd hk]
    rfl
  | tick | keyUp | frameQuery | frameConsume => rfl

/-- Settles O47 by induction on the events. -/
theorem waitingMachineKeepsItsProgramState : Obligations.WaitingMachineKeepsItsProgramState := by
  intro es s hk hes
  refine ⟨_, rfl, runEvents_induction (P := WaitsOn s) rfl ?_⟩
  intro e he t ht
  obtain ⟨hreset, hkey, hload⟩ := hes e he
  exact ht.trans (waitsOn_applyEvent (ht.keyWait_eq.trans hk) hreset hkey hload)

end Sys2Proof.Machine
end

