-- ==== Sys2Proof/Proofs/Invariant.lean ====
section
/-! The invariant of every reachable state (`State.Inv`): each of its three parts is kept by every instruction that completes
from a `pc` it was fetched from, hence by every `Step`, hence by every event. -/

namespace Sys2Proof.Machine

variable {i : Instr} {s t : State}

theorem Completes.canonical (h : Completes s i t) (hs : s.canonical = true) : t.canonical = true := by
  cases h
  case store hb _ => exact Memory.wf_writeBytes hs hb
  all_goals simpa using hs

theorem State.top_le (hs : ∀ k : Fin Config.params.stackDepth, s.stack[k].toNat ≤ 0xFFE) (h : s.sp.val ≠ 0) :
    (s.top h).toNat ≤ 0xFFE :=
  hs ⟨s.sp.val - 1, by omega⟩

/-- The largest `pc` is that of `JP V0`: 0xFFF + 0xFF (R14). -/
theorem Transfers.le {target : Word} (h : Transfers s i target)
    (hs : ∀ k : Fin Config.params.stackDepth, s.stack[k].toNat ≤ 0xFFE) : target.toNat ≤ 0x10FE := by
  cases h with
  | ret h =>
    have := State.top_le hs h
    rw [BitVec.toNat_add]
    simp
    omega
  | jp nnn | call nnn =>
    rw [addrOperand_toNat]
    omega
  | jpV0 nnn =>
    rw [BitVec.toNat_add, addrOperand_toNat, State.regWide_toNat]
    omega

theorem Completes.pc_le (h : Completes s i t) (hpc : s.pc.toNat ≤ 0xFFE)
    (hs : ∀ k : Fin Config.params.stackDepth, s.stack[k].toNat ≤ 0xFFE) : t.pc.toNat ≤ 0x10FE := by
  rcases h.pc_cases with e | ⟨e, -⟩ | htransfer
  · rw [e, BitVec.toNat_add]
    simp
    omega
  · rw [e, BitVec.toNat_add]
    simp
    omega
  · exact htransfer.le hs

/-- `CALL` pushes the `pc` it was fetched from; nothing else writes a slot (R53). -/
theorem Completes.stack_le (h : Completes s i t) (hpc : s.pc.toNat ≤ 0xFFE)
    (hs : ∀ k : Fin Config.params.stackDepth, s.stack[k].toNat ≤ 0xFFE) (k : Fin Config.params.stackDepth) :
    t.stack[k].toNat ≤ 0xFFE := by
  cases h
  case call nnn h =>
    simp only [State.setPc_stack, State.pushPc_stack, Fin.getElem_fin, Vector.getElem_set]
    split
    · exact hpc
    · exact hs k
  all_goals simpa using hs k

theorem Completes.inv (h : Completes s i t) (hpc : s.pc.toNat ≤ 0xFFE) (hs : s.Inv) : t.Inv := by
  obtain ⟨hcan, -, hstack⟩ := hs
  exact ⟨h.canonical hcan, h.pc_le hpc hstack, h.stack_le hpc hstack⟩

theorem Stepped.inv {rnd : Byte} (h : Stepped rnd s t) (hs : s.Inv) : t.Inv := by
  cases h with
  | held hk => exact hs
  | rejected hk hpc =>
    obtain ⟨hcan, -, hstack⟩ := hs
    refine ⟨hcan, ?_, hstack⟩
    have hadvance : ((s.beginStep rnd).raiseUnsupported s.wordAtPc).pc.toNat = (s.pc.toNat + 2) % 65536 := s.advance_pc_toNat
    omega
  | ran hk hpc hd hc => exact hc.inv hpc hs

/-- Settles O57: `step` is a `Step` from the same state with its draw counted, which the invariant does not read. -/
theorem stepKeepsTheInvariant : Obligations.StepKeepsTheInvariant := by
  intro s t hs h
  have hcounted : s.countDraw.Inv := hs
  exact (stepped_of_stepWith (s := s.countDraw) h).inv hcounted

/-- `Reset` from any state ends in one that meets the invariant. -/
theorem State.inv_resetFrom (s : State) : s.resetFrom.Inv := by
  refine ⟨State.wf_reset, (by decide : Config.entry.toNat ≤ 0x10FE), fun k => ?_⟩
  simp [State.resetFrom, State.resetUnder]

/-- Settles O56. -/
theorem resetMeetsTheInvariant : Obligations.ResetMeetsTheInvariant := State.reset.inv_resetFrom

theorem inv_applyEvent (e : Event) (hs : s.Inv) : (applyEvent e s).1.Inv := by
  cases e with
  | reset => exact s.inv_resetFrom
  | load bytes =>
    by_cases hb : bytes.length ≤ Config.romMax
    · obtain ⟨hcan, hpc, hstack⟩ := hs
      rw [applyEvent_load hb]
      exact ⟨State.wf_loaded hcan hb, hpc, hstack⟩
    · rw [applyEvent_load_too_large (by omega)]
      exact hs
  | step rnd =>
    rcases applyEvent_step_cases rnd s with h | h
    · exact h.inv hs
    · rw [h]
      exact hs
  | tick | keyDown k | keyUp | frameQuery | frameConsume => exact hs

/-- Settles O58 by induction on the events. -/
theorem eventsKeepTheInvariant : Obligations.EventsKeepTheInvariant :=
  fun _ _ hs => runEvents_induction hs fun e _ _ hu => inv_applyEvent e hu

end Sys2Proof.Machine
end

