-- ==== Sys2Proof/Proofs/Instructions.lean ====
section
/-! What single instructions do: control transfer, skips, registers and flags, keys and timers, the index register. -/

namespace Sys2Proof.Machine

/-! ## Control transfer -/

/-- Settles O13. -/
theorem sysReportsAndAdvances : Obligations.SysReportsAndAdvances :=
  fun nnn s => ⟨_, execSys_eq nnn s, s.advance_pc_toNat, rfl⟩

theorem State.top_eq {s : State} {k : Fin Config.stackDepth} (hk : s.sp.val = k.val + 1) (h : s.sp.val ≠ 0) :
    s.top h = s.stack[k] := by
  simp [State.top, hk]

/-- Settles O14: the newest slot is the one below `SP`. -/
theorem retPopsPastTheCall : Obligations.RetPopsPastTheCall := by
  intro s
  refine ⟨fun k hk => ?_, execRet_empty⟩
  have hne : s.sp.val ≠ 0 := by omega
  refine ⟨_, execRet_of_ne hne, ?_, ?_, rfl⟩
  · rw [State.setPc_pc, State.top_eq hk, BitVec.toNat_add]
    rfl
  · simp [hk]

/-- Settles O15. -/
theorem callPushesItsOwnAddress : Obligations.CallPushesItsOwnAddress := by
  intro nnn s
  refine ⟨fun k hk => ?_, execCall_full nnn⟩
  have hlt : s.sp.val < Config.params.stackDepth := by rw [hk]; exact k.isLt
  refine ⟨_, execCall_of_lt nnn hlt, ?_, fun j hj => ?_, ?_, addrOperand_toNat nnn, rfl⟩
  · simp [hk]
  · have hne : s.sp.val ≠ j.val := fun e => hj (Fin.ext (by omega))
    simp [hne]
  · simp [hk]

/-- Settles O16: `RET` finds in the newest slot the `pc` that `CALL` put there. -/
theorem callThenRetRoundTrip : Obligations.CallThenRetRoundTrip := by
  intro nnn s hlt
  have hne : ((s.pushPc hlt).setPc (addrOperand nnn)).sp.val ≠ 0 := Nat.succ_ne_zero _
  refine ⟨_, _, execCall_of_lt nnn hlt, execRet_of_ne hne, ?_, rfl, rfl⟩
  simp [State.top]

/-- Settles O17: the sum of `JP V0` is at most 0x10FE and does not wrap. -/
theorem jumpsWritePcOnly : Obligations.JumpsWritePcOnly := by
  intro nnn s
  refine ⟨⟨_, rfl, addrOperand_toNat nnn, rfl⟩, _, rfl, ?_, rfl⟩
  have hwrap : nnn.toNat + (s.reg 0).toNat < 2 ^ 16 := by omega
  rw [State.setPc_pc, BitVec.toNat_add, addrOperand_toNat, State.regWide_toNat, Nat.mod_eq_of_lt hwrap]

/-! ## Skips -/

/-- Settles O18. -/
theorem skipsOnByte : Obligations.SkipsOnByte := by
  intro x nn s
  exact ⟨⟨_, rfl, s.skipIf_effect beq_iff_eq⟩, _, rfl, s.skipIf_effect bne_iff_ne⟩

/-- Settles O19: with the two registers the same, the condition is decided. -/
theorem skipsOnRegisters : Obligations.SkipsOnRegisters := by
  intro x y s
  obtain ⟨hseFrame, hse⟩ := s.skipIf_effect (beq_iff_eq (a := s.reg x) (b := s.reg y))
  obtain ⟨hsneFrame, hsne⟩ := s.skipIf_effect (bne_iff_ne (a := s.reg x) (b := s.reg y))
  refine ⟨⟨_, rfl, hseFrame, hse, ?_⟩, _, rfl, hsneFrame, hsne, ?_⟩
  · rintro rfl
    rw [hse, if_pos rfl]
  · rintro rfl
    rw [hsne, if_neg (not_not.mpr rfl)]

/-! ## Registers and flags -/

/-- Settles O21. -/
theorem rndMasksTheFreeByte : Obligations.RndMasksTheFreeByte := by
  intro x nn s
  obtain ⟨hwritten, hframe⟩ := s.setReg_advance_effect x (s.rnd &&& nn)
  exact ⟨_, rfl, fun b => by rw [hwritten, BitVec.getLsbD_and], hframe⟩

/-- Settles O23: four writes of one register, with the value bit by bit. -/
theorem moveAndLogicWriteOneRegister : Obligations.MoveAndLogicWriteOneRegister := by
  intro x y s
  obtain ⟨hor, horFrame⟩ := s.setReg_advance_effect x (s.reg x ||| s.reg y)
  obtain ⟨hand, handFrame⟩ := s.setReg_advance_effect x (s.reg x &&& s.reg y)
  obtain ⟨hxor, hxorFrame⟩ := s.setReg_advance_effect x (s.reg x ^^^ s.reg y)
  exact ⟨⟨_, rfl, s.setReg_advance_effect x (s.reg y)⟩,
    ⟨_, rfl, fun b => by rw [hor, BitVec.getLsbD_or], horFrame⟩,
    ⟨_, rfl, fun b => by rw [hand, BitVec.getLsbD_and], handFrame⟩,
    _, rfl, fun b => by rw [hxor, BitVec.getLsbD_xor], hxorFrame⟩

/-- Settles O24. -/
theorem addSetsSumAndCarry : Obligations.AddSetsSumAndCarry := by
  intro x y s
  obtain ⟨hflag, hresult, hframe⟩ :=
    s.setResultAndFlag_advance_effect x (s.reg x + s.reg y) (carryOut (s.reg x) (s.reg y))
  refine ⟨_, rfl, hflag.trans (flagByte_decide _), fun hx => ?_, hframe⟩
  rw [hresult hx, BitVec.toNat_add]

/-- A difference modulo 256, the borrow added first. -/
theorem sub_toNat (a b : Byte) : (a - b).toNat = (a.toNat + 256 - b.toNat) % 256 := by
  rw [BitVec.toNat_sub]
  congr 1
  omega

/-- Settles O25: one subtraction with its no-borrow flag, the operands in either order. -/
theorem subtractionsSetDifferenceAndNoBorrow : Obligations.SubtractionsSetDifferenceAndNoBorrow := by
  intro x y s
  obtain ⟨hsub, hsubResult, hsubFrame⟩ :=
    s.setResultAndFlag_advance_effect x (s.reg x - s.reg y) (noBorrow (s.reg x) (s.reg y))
  obtain ⟨hsubn, hsubnResult, hsubnFrame⟩ :=
    s.setResultAndFlag_advance_effect x (s.reg y - s.reg x) (noBorrow (s.reg y) (s.reg x))
  exact ⟨⟨_, rfl, hsub.trans (flagByte_decide _), fun hx => by rw [hsubResult hx, sub_toNat], hsubFrame⟩,
    _, rfl, hsubn.trans (flagByte_decide _), fun hx => by rw [hsubnResult hx, sub_toNat], hsubnFrame⟩

theorem shiftedOut_toNat (b : Byte) : (shiftedOut b).toNat = b.toNat % 2 := by
  rw [shiftedOut, BitVec.getLsbD, Nat.testBit_zero]
  rcases Nat.mod_two_eq_zero_or_one b.toNat with h | h <;> simp [h]

theorem shl_toNat (b : Byte) : (b <<< 1).toNat = b.toNat * 2 % 256 := by
  rw [BitVec.toNat_shiftLeft, Nat.shiftLeft_eq]

theorem shlFlag_bit7_toNat (b : Byte) : (shlFlag .bit7 b).toNat = b.toNat / 128 := by
  have hlt : b.toNat / 128 < 2 := by omega
  rw [shlFlag, BitVec.getLsbD, Nat.testBit_eq_decide_div_mod_eq]
  generalize b.toNat / 2 ^ 7 = q at *
  interval_cases q <;> rfl

/-- Settles O26. -/
theorem shrHalvesAndKeepsLowBit : Obligations.ShrHalvesAndKeepsLowBit := by
  intro x y s
  obtain ⟨hflag, hresult, hframe⟩ :=
    s.setResultAndFlag_advance_effect x (s.reg x >>> 1) (shiftedOut (s.reg x))
  refine ⟨_, rfl, ?_, fun hx => ?_, hframe⟩
  · rw [hflag, flagByte_toNat, shiftedOut_toNat]
  · rw [hresult hx, BitVec.toNat_ushiftRight, Nat.shiftRight_eq_div_pow]

/-- Settles O27: the two values of `SHL_FLAG_RULE` differ in the flag alone. -/
theorem shlDoublesAndFlagsAboveSeven : Obligations.ShlDoublesAndFlagsAboveSeven := by
  intro x y s
  obtain ⟨hgt7, hresult, hframe⟩ :=
    s.setResultAndFlag_advance_effect x (s.reg x <<< 1) (shlFlag .gt7 (s.reg x))
  obtain ⟨hbit7, hresult', hframe'⟩ :=
    s.setResultAndFlag_advance_effect x (s.reg x <<< 1) (shlFlag .bit7 (s.reg x))
  exact ⟨⟨_, rfl, hgt7.trans (flagByte_decide _), fun hx => by rw [hresult hx, shl_toNat], hframe⟩,
    _, rfl, by rw [hbit7, flagByte_toNat, shlFlag_bit7_toNat], fun hx => by rw [hresult' hx, shl_toNat], hframe'⟩

/-! ## Keys and timers -/

theorem keyMatches_of_latched {latch : Option Key} {b : Byte} (h : ∃ k, latch = some k ∧ k.val = b.toNat) :
    keyMatches latch b = true := by
  obtain ⟨k, rfl, hk⟩ := h
  exact beq_iff_eq.mpr hk

theorem keyMatches_of_not_latched {latch : Option Key} {b : Byte} (h : ∀ k, latch = some k → k.val ≠ b.toNat) :
    keyMatches latch b = false := by
  cases latch with
  | none => rfl
  | some k => exact beq_eq_false_iff_ne.mpr (h k rfl)

/-- Settles O28: the conditions of the two skips are each other's negation. -/
theorem keySkipsCompareTheLatch : Obligations.KeySkipsCompareTheLatch := by
  intro x s
  obtain ⟨hskp, hskpPc⟩ := s.skipIf_effect (c := keyMatches s.latch (s.reg x)) Iff.rfl
  obtain ⟨hsknp, hsknpPc⟩ := s.skipIf_effect (c := !keyMatches s.latch (s.reg x)) (Iff.of_eq (Bool.not_eq_true' _))
  refine ⟨⟨_, rfl, hskp, fun h => ?_, fun h => ?_⟩, _, rfl, hsknp, fun h => ?_, fun h => ?_⟩
  · rw [hskpPc, if_pos (keyMatches_of_latched h)]
  · rw [hskpPc, if_neg (by simp [keyMatches_of_not_latched h])]
  · rw [hsknpPc, if_neg (by simp [keyMatches_of_latched h])]
  · rw [hsknpPc, if_pos (keyMatches_of_not_latched h)]

/-- Settles O29. -/
theorem timerCopies : Obligations.TimerCopies := by
  intro x s
  exact ⟨⟨_, rfl, s.setReg_advance_effect x s.dt⟩, ⟨_, rfl, rfl, s.advance_pc_toNat, rfl⟩,
    _, rfl, rfl, s.advance_pc_toNat, rfl⟩

/-- Settles O30. -/
theorem keyWaitSetsTheModeOnly : Obligations.KeyWaitSetsTheModeOnly :=
  fun _ s => ⟨_, rfl, rfl, s.advance_pc_toNat, rfl⟩

/-! ## The index register -/

theorem glyphAddr_toNat (b : Byte) : (glyphAddr b).toNat = b.toNat * 5 := by
  rw [glyphAddr, BitVec.toNat_mul, BitVec.toNat_setWidth_of_le (by decide)]
  exact Nat.mod_eq_of_lt (by simp; omega)

/-- Settles O31. -/
theorem indexRegisterWriters : Obligations.IndexRegisterWriters := by
  intro s
  refine ⟨fun nnn => ⟨_, rfl, addrOperand_toNat nnn, s.advance_pc_toNat, rfl⟩, fun x => ⟨?_, ?_⟩⟩
  · refine ⟨_, rfl, ?_, s.advance_pc_toNat, rfl⟩
    simp
  · exact ⟨_, rfl, glyphAddr_toNat (s.reg x), s.advance_pc_toNat, rfl⟩

end Sys2Proof.Machine
end

