-- ==== Sys2Proof/Proofs/Events.lean ====
section
/-! The host's events (60_exceptions.md section 5, 70_reset_and_hazards.md). -/

namespace Sys2Proof.Machine

variable {p : Params} {font : Font}

/-! ## Reset and Load -/

theorem Memory.resetByte_of_lt {a : Nat} (h : a < 80) : Memory.resetByte font a = font[a] := by
  simp [Memory.resetByte, h]

theorem Memory.resetByte_of_ge {a : Nat} (h : 80 ≤ a) : Memory.resetByte font a = 0x00#8 := by
  simp [Memory.resetByte, Nat.not_lt.mpr h]

/-- After `Reset` memory reads as the reset contents (R111). -/
theorem State.resetFrom_byte (s : State p) (a : Nat) : s.resetFrom.byte a = Memory.resetByte p.font a := rfl

theorem Framebuffer.cell_blank (k : Fin 2048) : Framebuffer.blank.cell k = false := Framebuffer.lit_blank _

/-- Settles O49: memory after `Reset` lists nothing, so its bytes are the font and zeros. -/
theorem resetSetsEveryElement : Obligations.ResetSetsEveryElement := by
  intro s
  refine ⟨s.resetFrom, rfl, rfl, fun x => ?_, rfl, rfl, fun k => ?_, rfl, rfl, rfl, Framebuffer.cell_blank, rfl, rfl, rfl,
    rfl, rfl, rfl, rfl, fun a ha _ => Memory.resetByte_of_ge ha⟩
  · simp [State.reg, State.resetFrom, State.resetUnder]
  · simp [State.resetFrom, State.resetUnder]

theorem entry_add_le {bytes : List Byte} (h : bytes.length ≤ 0x0E00) : Config.entry.toNat + bytes.length ≤ 4096 := by
  simp
  omega

/-- A program that fits, read back, and every other address as before (R112). -/
theorem State.loaded_byte {s : State p} (hs : s.canonical = true) {bytes : List Byte} (h : bytes.length ≤ 0x0E00) :
    (∀ k, ∀ hk : k < bytes.length, (s.loaded bytes).byte (0x200 + k) = bytes[k]) ∧
      ∀ a, a < 0x200 ∨ 0x200 + bytes.length ≤ a → (s.loaded bytes).byte a = s.byte a :=
  ⟨fun _ hk => Memory.byte_writeBytes_inside hs (entry_add_le h) hk,
    fun _ ha => Memory.byte_writeBytes_outside hs (entry_add_le h) ha⟩

/-- Settles O50. -/
theorem loadWritesTheProgram : Obligations.LoadWritesTheProgram := fun bytes s =>
  ⟨fun h => ⟨s.loaded bytes, applyEvent_load h s, rfl, fun hs => State.loaded_byte hs h⟩,
    fun h => applyEvent_load_too_large h s⟩

/-- Settles O51: `Reset` ends in a canonical memory, from which `Load` is as in O50. -/
theorem freshlyBootedState : Obligations.FreshlyBootedState := by
  intro bytes s h
  have hboot : bootedWith bytes s = s.resetFrom.loaded bytes := by
    rw [bootedWith, runEvents_cons, runEvents_cons, runEvents_nil, applyEvent_reset, applyEvent_load h]
  obtain ⟨hinside, houtside⟩ := State.loaded_byte (s := s.resetFrom) State.wf_reset h
  refine ⟨_, hboot, rfl, hinside, fun a ha => ?_, fun a ha ha' => ?_⟩
  · rw [houtside a (.inl (by omega))]
    rfl
  · rw [houtside a ha', State.resetFrom_byte, Memory.resetByte_of_ge ha]

/-! ## Timers, keys, frame -/

theorem tickTimer_toNat (b : Byte) : (tickTimer b).toNat = b.toNat - 1 := by
  rw [tickTimer]
  split
  · simp_all
  · bv_omega

/-- After n ticks each timer is lower by n, never below zero, and nothing else has changed. -/
theorem runEvents_ticks (n : Nat) (s : State) : ∃ t, runEvents (List.replicate n .tick) s = t ∧
    t.dt.toNat = s.dt.toNat - n ∧ t.st.toNat = s.st.toNat - n ∧ t = { s with dt := t.dt, st := t.st } := by
  induction n generalizing s with
  | zero => exact ⟨s, rfl, rfl, rfl, rfl⟩
  | succ n ih =>
    obtain ⟨t, hrun, hdt, hst, hframe⟩ := ih s.tick
    refine ⟨t, hrun, ?_, ?_, hframe⟩
    · rw [hdt, State.tick_dt, tickTimer_toNat]
      omega
    · rw [hst, State.tick_st, tickTimer_toNat]
      omega

/-- Settles O52. -/
theorem ticksRunTimersDownToZero : Obligations.TicksRunTimersDownToZero := fun n s =>
  ⟨⟨s.tick, rfl, tickTimer_toNat s.dt, tickTimer_toNat s.st, rfl⟩, runEvents_ticks n s⟩

/-- Settles O53 by the laws of the two events. -/
theorem keyEventsWriteTheLatch : Obligations.KeyEventsWriteTheLatch := fun k s =>
  ⟨applyEvent_keyDown k s, applyEvent_keyUp s⟩

/-- The cell at the index of a pixel (R20). -/
theorem Framebuffer.cell_eq_lit (fb : Framebuffer) {q : Pixel} {k : Fin 2048} (hk : k.val = q.2.val * 64 + q.1.val) :
    fb.cell k = fb.lit q := by
  have hlt : q.1.val < 64 := q.1.isLt
  have hcolumn : k.val % 64 = q.1.val := by omega
  have hrow : k.val / 64 = q.2.val := by omega
  simp [Framebuffer.cell, hcolumn, hrow]

/-- Settles O55. -/
theorem frameConsumeReturnsTheBitmap : Obligations.FrameConsumeReturnsTheBitmap := fun s =>
  ⟨s.fb, applyEvent_frameConsume s, fun _ _ hk => (s.fb.cell_eq_lit hk).symm⟩

end Sys2Proof.Machine
end

