-- ==== Sys2Proof/Proofs/Canonical.lean ====
section
/-! The canonical form of memory (log 12): each memory has exactly one. -/

namespace Sys2Proof.Machine

variable {font : Font}

theorem Memory.wfFrom_cons {lo a : Nat} {b : Byte} {m : Memory} : Memory.wfFrom font lo ((a, b) :: m) = true ↔
    lo ≤ a ∧ a < 4096 ∧ b ≠ Memory.resetByte font a ∧ Memory.wfFrom font (a + 1) m = true := by
  simp [Memory.wfFrom, and_assoc]

theorem Memory.byte_cons (a : Nat) (b : Byte) (m : Memory) (c : Nat) :
    Memory.byte font ((a, b) :: m) c = if c = a then b else m.byte font c := rfl

/-- An entry differs from the reset contents of its address. -/
theorem Memory.byte_head_ne {lo a : Nat} {b : Byte} {m : Memory} (h : Memory.wfFrom font lo ((a, b) :: m) = true) :
    Memory.byte font ((a, b) :: m) a ≠ Memory.resetByte font a := by
  obtain ⟨-, -, hb, -⟩ := Memory.wfFrom_cons.mp h
  simpa [Memory.byte_cons] using hb

/-- A canonical memory that differs from the reset contents at `a` has an entry at `a` or below it. -/
theorem Memory.head_le {lo a : Nat} {m : Memory} (h : Memory.wfFrom font lo m = true)
    (ha : m.byte font a ≠ Memory.resetByte font a) : ∃ a' b' l, m = (a', b') :: l ∧ a' ≤ a := by
  cases m with
  | nil => exact absurd rfl ha
  | cons c l =>
    obtain ⟨a', b'⟩ := c
    refine ⟨a', b', l, rfl, ?_⟩
    by_contra hlt
    obtain ⟨-, hrest⟩ := Memory.wfFrom_cons.mp h
    have h' : Memory.wfFrom font (a + 1) ((a', b') :: l) = true := Memory.wfFrom_cons.mpr ⟨by omega, hrest⟩
    exact ha (Memory.byte_of_lt h' (by omega))

/-- Two canonical memories that read alike are equal: they begin with the same entry, and their tails read alike too. -/
theorem Memory.eq_of_byte_eq {lo lo' : Nat} {m m' : Memory} (h : Memory.wfFrom font lo m = true)
    (h' : Memory.wfFrom font lo' m' = true) (heq : ∀ a, m.byte font a = m'.byte font a) : m = m' := by
  induction m generalizing lo lo' m' with
  | nil =>
    cases m' with
    | nil => rfl
    | cons c l => exact absurd (heq c.1).symm (Memory.byte_head_ne h')
  | cons c l ih =>
    obtain ⟨a, b⟩ := c
    obtain ⟨a', b', l', rfl, hle⟩ := Memory.head_le h' (by rw [← heq a]; exact Memory.byte_head_ne h)
    obtain ⟨_, _, _, e, hge⟩ := Memory.head_le h (by rw [heq a']; exact Memory.byte_head_ne h')
    cases e
    obtain rfl : a' = a := by omega
    have hbb : b = b' := by simpa [Memory.byte_cons] using heq a'
    have htail : l = l' := by
      obtain ⟨-, -, -, hl⟩ := Memory.wfFrom_cons.mp h
      obtain ⟨-, -, -, hl'⟩ := Memory.wfFrom_cons.mp h'
      refine ih hl hl' fun c => ?_
      by_cases hc : c = a'
      · rw [hc, Memory.byte_of_lt hl (Nat.lt_succ_self a'), Memory.byte_of_lt hl' (Nat.lt_succ_self a')]
      · simpa [Memory.byte_cons, hc] using heq c
    rw [hbb, htail]

/-- Settles O59. -/
theorem canonicalMemoryIsUnique : Obligations.CanonicalMemoryIsUnique :=
  fun _ _ _ h h' heq => Memory.eq_of_byte_eq h h' heq

end Sys2Proof.Machine
end

