-- ==== Sys2Proof/Proofs/Parameters.lean ====
section
/-! The machine with parameters (R4, log 27): its rules hold at every value, and at the values the spec takes it is this
hardware. -/

namespace Sys2Proof.Machine

theorem execUnder_eq_exec (i : Instr) (s : State) : execUnder i s = exec i s := by cases i <;> rfl

theorem stepUnder_eq_stepWith (rnd : Byte) (s : State) : stepUnder rnd s = stepWith rnd s :=
  stepBy_congr decodeUnder_numerals execUnder_eq_exec rnd s

theorem applyEventUnder_eq_applyEvent (e : Event) (s : State) : applyEventUnder e s = applyEvent e s := by
  rw [applyEventUnder, applyEvent, show stepUnder = stepWith from funext₂ stepUnder_eq_stepWith]

/-- Settles O60: the first half by the laws that hold at every value of the parameters, the second by the equalities above. -/
theorem parametersAreArguments : Obligations.ParametersAreArguments := by
  refine ⟨fun p s => ⟨fun _ _ => rfl, fun _ _ _ => rfl, fun nnn => ⟨?call, execCall_full nnn⟩, ?font, ?zero, ?step⟩,
    decodeUnder_numerals, encodeUnder_numerals, execUnder_eq_exec, stepUnder_eq_stepWith, applyEventUnder_eq_applyEvent⟩
  case call => exact fun h => ⟨_, execCall_of_lt nnn h, rfl⟩
  case font => exact fun k => Memory.resetByte_of_lt k.isLt
  case zero => exact fun a ha => Memory.resetByte_of_ge ha
  case step =>
    intro hk hpc rnd
    have hfetch : s.fetch = .ok s.wordAtPc := State.fetch_ok hpc
    exact ⟨fun i hd => stepBy_decoded _ rnd hk hfetch hd, fun hd => ⟨_, stepBy_unsupported _ rnd hk hfetch hd, rfl, rfl⟩⟩

end Sys2Proof.Machine
end

