-- ==== Sys2Proof/Proofs/IndexMemory.lean ====
section
/-! The instructions that store to and load from memory at `I` (45_index_memory.md). -/

namespace Sys2Proof.Machine

/-- A store at `I` that fits writes its bytes and no other, advances, and changes no other element (R33). -/
theorem State.storeAtIndex_effect (s : State) {bs : List Byte} (hn : bs.length ≠ 0) (hfit : s.base + bs.length ≤ 4096) :
    ∃ t, s.storeAtIndex bs = .next t ∧
      (s.canonical = true → (∀ k, ∀ h : k < bs.length, t.byte (s.base + k) = bs[k]) ∧
        ∀ a, a < s.base ∨ s.base + bs.length ≤ a → t.byte a = s.byte a) ∧
      t.pc.toNat = (s.pc.toNat + 2) % 65536 ∧ t = { s with mem := t.mem, pc := t.pc } := by
  obtain ⟨-, hstore⟩ := (s.storeAtIndex_cases hn).resolve_right (by omega)
  exact ⟨_, hstore, fun hs => ⟨fun _ hk => Memory.byte_writeBytes_inside hs hfit hk,
    fun _ ha => Memory.byte_writeBytes_outside hs hfit ha⟩, s.advance_pc_toNat, rfl⟩

/-- Settles O32. -/
theorem bcdStoresThreeDigits : Obligations.BcdStoresThreeDigits := by
  intro x s
  refine ⟨fun h => ?_, fun h => exec_of_faults (.ldB x h)⟩
  have hlen := bcdDigits_length (s.reg x)
  obtain ⟨t, hstore, hbytes, hframe⟩ := s.storeAtIndex_effect (bs := bcdDigits (s.reg x)) (by omega) (by omega)
  refine ⟨t, hstore, fun hs => ?_, hframe⟩
  obtain ⟨hinside, houtside⟩ := hbytes hs
  refine ⟨?hundreds, ?tens, ?units, fun a ha => houtside a (by omega)⟩
  case hundreds =>
    rw [show t.byte s.base = _ from hinside 0 (by omega)]
    exact Nat.mod_eq_of_lt (by omega)
  case tens =>
    rw [hinside 1 (by omega)]
    exact Nat.mod_eq_of_lt (by omega)
  case units =>
    rw [hinside 2 (by omega)]
    exact Nat.mod_eq_of_lt (by omega)

theorem State.regsUpTo_getElem (s : State) {x r : RegIx} (h : r.val ≤ x.val) (hr : r.val < (s.regsUpTo x).length) :
    (s.regsUpTo x)[r.val] = s.reg r := by
  rw [List.getElem_eq_iff, s.regsUpTo_getElem? x r h]

/-- Settles O33. -/
theorem dumpStoresRegistersUpToX : Obligations.DumpStoresRegistersUpToX := by
  intro x s
  refine ⟨fun h => ?_, fun h => exec_of_faults (.ldMemVx x h)⟩
  have hlen := s.regsUpTo_length x
  obtain ⟨t, hstore, hbytes, hframe⟩ := s.storeAtIndex_effect (bs := s.regsUpTo x) (by omega) (by omega)
  refine ⟨t, hstore, fun hs => ?_, hframe⟩
  obtain ⟨hinside, houtside⟩ := hbytes hs
  refine ⟨fun r hr => ?_, fun a ha => houtside a (by omega)⟩
  rw [hinside r.val (by omega), s.regsUpTo_getElem hr]

/-- Settles O34: byte `r` of the block goes to register `r`; above `X` the block ends. -/
theorem loadReadsRegistersUpToX : Obligations.LoadReadsRegistersUpToX := by
  intro x s
  refine ⟨fun h => ?_, fun h => exec_of_faults (.ldVxMem x h)⟩
  obtain ⟨-, hload⟩ := (execLdVxMem_cases x s).resolve_right (by omega)
  refine ⟨_, hload, fun r hr => ?loaded, fun r hr => ?kept, ?pc, ?frame⟩
  case loaded =>
    have hin : r.val < x.val + 1 := by omega
    rw [State.advance_reg, State.setRegs_reg]
    simp [hin]
  case kept =>
    have hout : ¬ r.val < x.val + 1 := by omega
    rw [State.advance_reg, State.setRegs_reg]
    simp [hout]
  case pc => rw [State.advance_pc_toNat, State.setRegs_pc]
  case frame =>
    rw [State.setRegs]
    rfl

/-- Settles O35: the load reads the bytes that the dump stored. -/
theorem dumpThenLoadRestores : Obligations.DumpThenLoadRestores := by
  intro x s hs h
  obtain ⟨t, hdump, hbytes, -, hframe⟩ := (dumpStoresRegistersUpToX x s).1 h
  obtain ⟨hstored, -⟩ := hbytes hs
  refine ⟨t, hdump, fun u hmem hi => ?_⟩
  have hti : t.i = s.i := by rw [hframe]
  have hbase : u.base = s.base := by rw [State.base_eq, hi, hti, State.base_eq]
  obtain ⟨w, hload, hread, hkept, -⟩ := (loadReadsRegistersUpToX x u).1 (by rwa [hbase])
  refine ⟨w, hload, fun r hr => ?_, hkept⟩
  rw [hread r hr, hbase, State.byte_eq, hmem]
  exact hstored r hr

/-- Settles O36. -/
theorem storedBytesAreFetched : Obligations.StoredBytesAreFetched := by
  intro x r r' s hs h hr hr'
  obtain ⟨t, hdump, hbytes, -⟩ := (dumpStoresRegistersUpToX x s).1 h
  obtain ⟨hstored, -⟩ := hbytes hs
  refine ⟨t, hdump, fun u hmem hpc => ?_⟩
  have hbyte : ∀ q : RegIx, q.val ≤ x.val → u.byte (s.base + q.val) = s.reg q := fun q hq => by
    rw [State.byte_eq, hmem]
    exact hstored q hq
  rw [State.fetch_ok (by omega), hpc, hbyte r (by omega), Nat.add_assoc, ← hr, hbyte r' hr']
  rfl

end Sys2Proof.Machine
end

