-- ==== Sys2Proof/Proofs/Display.lean ====
section
/-! `CLS` and `DRW` (46_framebuffer.md), `DRW` under either value of `DRAW_EDGE`: the loop meets every drawn
pixel once, so what it leaves in each cell and in `VF` is said by which pixels are drawn (`State.Draws`). -/

namespace Sys2Proof.Machine

variable {edge : DrawEdge} {x0 y0 : Byte}

/-- Settles O37. -/
theorem clsBlanksTheFrame : Obligations.ClsBlanksTheFrame := fun s =>
  ⟨_, rfl, Framebuffer.cell_blank, rfl, s.advance_pc_toNat, rfl⟩

/-! ## The pixels a sprite draws -/

/-- Under `edge`, `DRW Vx, Vy, n` draws pixel `q`: some set bit of the sprite falls on it (R85). -/
def State.Draws (edge : DrawEdge) (s : State) (x y : RegIx) (n : Rows) (q : Pixel) : Prop :=
  ∃ r c, s.SpriteBit n r c ∧ targetPixel edge (s.reg x) (s.reg y) r c = some q

theorem targetPixel_wrap_iff {r c : Nat} {q : Pixel} : targetPixel .wrap x0 y0 r c = some q ↔
    q.1.val = (x0.toNat + c) % 64 ∧ q.2.val = (y0.toNat + r) % 32 := by
  obtain ⟨⟨qx, hx⟩, qy, hy⟩ := q
  simp [targetPixel, eq_comm]

theorem targetPixel_clip_iff {r c : Nat} {q : Pixel} : targetPixel .clip x0 y0 r c = some q ↔
    q.1.val = x0.toNat + c ∧ q.2.val = y0.toNat + r := by
  obtain ⟨⟨qx, hx⟩, qy, hy⟩ := q
  simp only [targetPixel, Option.dite_none_right_eq_some, Option.some.injEq, Prod.mk.injEq, Fin.mk.injEq]
  constructor
  · rintro ⟨-, rfl, rfl⟩
    exact ⟨rfl, rfl⟩
  · rintro ⟨rfl, rfl⟩
    exact ⟨⟨hx, hy⟩, rfl, rfl⟩

theorem State.draws_wrap_iff (s : State) (x y : RegIx) (n : Rows) (q : Pixel) :
    s.Draws .wrap x y n q ↔ s.DrawnWrap x y n q := by
  simp only [State.Draws, State.DrawnWrap, targetPixel_wrap_iff]

theorem State.draws_clip_iff (s : State) (x y : RegIx) (n : Rows) (q : Pixel) :
    s.Draws .clip x y n q ↔ s.DrawnClip x y n q := by
  simp only [State.Draws, State.DrawnClip, targetPixel_clip_iff]

/-- Wherever a pixel of the sprite falls, it falls on its column modulo 64 and its row modulo 32. -/
theorem targetPixel_mod {r c : Nat} {q : Pixel} (h : targetPixel edge x0 y0 r c = some q) :
    q.1.val = (x0.toNat + c) % 64 ∧ q.2.val = (y0.toNat + r) % 32 := by
  cases edge with
  | wrap => exact targetPixel_wrap_iff.mp h
  | clip =>
    obtain ⟨hx, hy⟩ := targetPixel_clip_iff.mp h
    exact ⟨by rw [← hx, Nat.mod_eq_of_lt q.1.isLt], by rw [← hy, Nat.mod_eq_of_lt q.2.isLt]⟩

/-- Two bits of a sprite of at most 32 rows do not fall on one pixel. -/
theorem targetPixel_injective {r c r' c' : Nat} {q : Pixel} (h : targetPixel edge x0 y0 r c = some q)
    (h' : targetPixel edge x0 y0 r' c' = some q) (hr : r < 32) (hr' : r' < 32) (hc : c < 8) (hc' : c' < 8) :
    r = r' ∧ c = c' := by
  obtain ⟨hx, hy⟩ := targetPixel_mod h
  obtain ⟨hx', hy'⟩ := targetPixel_mod h'
  omega

theorem nodup_rowPixels {r : Nat} (hr : r < 32) (b : Byte) : (rowPixels edge x0 y0 r b).Nodup := by
  rw [rowPixels, List.Nodup, List.pairwise_filterMap]
  refine List.nodup_range.imp_of_mem fun {c c'} hc hc' hne q hq q' hq' e => hne ?_
  rw [List.mem_range] at hc hc'
  rw [Option.ite_none_right_eq_some] at hq hq'
  exact (targetPixel_injective hq.2 (e ▸ hq'.2) hr hr hc hc').2

theorem nodup_spritePixels {r0 : Nat} {bs : List Byte} (h : r0 + bs.length ≤ 32) :
    (spritePixels edge x0 y0 r0 bs).Nodup := by
  induction bs generalizing r0 with
  | nil => exact List.nodup_nil
  | cons b bs ih =>
    rw [List.length_cons] at h
    rw [spritePixels, List.nodup_append]
    refine ⟨nodup_rowPixels (by omega) b, ih (by omega), fun q hq q' hq' e => ?_⟩
    subst e
    obtain ⟨c, hc, -, htarget⟩ := mem_rowPixels.mp hq
    obtain ⟨k, hk, hq'⟩ := mem_spritePixels.mp hq'
    obtain ⟨c', hc', -, htarget'⟩ := mem_rowPixels.mp hq'
    have := targetPixel_injective htarget htarget' (by omega) (by omega) hc hc'
    omega

theorem State.mem_sprite_iff {s : State} {x y : RegIx} {n : Rows} {q : Pixel} :
    q ∈ spritePixels edge (s.reg x) (s.reg y) 0 ((List.range n.val).map fun k => s.byte (s.base + k)) ↔
      s.Draws edge x y n q := by
  simp only [mem_spritePixels, mem_rowPixels, State.Draws, State.SpriteBit, List.length_map, List.length_range,
    List.getElem_map, List.getElem_range, Nat.zero_add]
  constructor
  · rintro ⟨r, hr, c, hc, hbit, htarget⟩
    exact ⟨r, c, ⟨hr, hc, hbit⟩, htarget⟩
  · rintro ⟨r, c, ⟨hr, hc, hbit⟩, htarget⟩
    exact ⟨r, hr, c, hc, hbit, htarget⟩

/-! ## The loop of `DRW` and the instruction -/

/-- What the loop of `DRW` leaves in each cell (R86 (a)). -/
theorem State.drawn_lit_iff (edge : DrawEdge) (s : State) (x y : RegIx) (n : Rows) (q : Pixel) :
    (s.drawn edge x y n).1.lit q = true ↔ ¬(s.fb.lit q = true ↔ s.Draws edge x y n q) := by
  rw [State.drawn, (togglePixels_of_nodup s.fb false (nodup_spritePixels (by simp; omega))).1, ← State.mem_sprite_iff]
  cases s.fb.lit q <;> simp

/-- The flag the loop of `DRW` computes (R86 (b)). -/
theorem State.drawn_flag_iff (edge : DrawEdge) (s : State) (x y : RegIx) (n : Rows) :
    (s.drawn edge x y n).2 = true ↔ ∃ q, s.Draws edge x y n q ∧ s.fb.lit q = true := by
  rw [State.drawn, (togglePixels_of_nodup s.fb false (nodup_spritePixels (by simp; omega))).2, Bool.false_or,
    List.any_eq_true]
  simp only [State.mem_sprite_iff]

/-- A `DRW` whose sprite is in memory, or that has no rows, under either value of `DRAW_EDGE`. -/
theorem execDrwUnder_effect (edge : DrawEdge) (x y : RegIx) (n : Rows) {s : State}
    (h : n.val = 0 ∨ s.base + n.val ≤ 0x1000) : ∃ t, execDrwUnder edge x y n s = .next t ∧
      (∀ q, t.fb.lit q = true ↔ ¬(s.fb.lit q = true ↔ s.Draws edge x y n q)) ∧
      (t.reg 15 = 0x01#8 ↔ ∃ q, s.Draws edge x y n q ∧ s.fb.lit q = true) ∧
      ((∀ q, s.Draws edge x y n q → s.fb.lit q = false) → t.reg 15 = 0x00#8) ∧
      (∀ r, r ≠ 15 → t.reg r = s.reg r) ∧ t.drawReady = true ∧ t.pc.toNat = (s.pc.toNat + 2) % 65536 ∧
      t = { s with v := t.v, fb := t.fb, drawReady := t.drawReady, pc := t.pc } := by
  obtain ⟨-, hdrw⟩ := (execDrwUnder_cases edge x y n s).resolve_right (by omega)
  refine ⟨_, hdrw, s.drawn_lit_iff edge x y n, ?collision, fun hdark => ?clear, fun r hr => ?others, rfl,
    ?pc, ?frame⟩
  case collision =>
    rw [State.advance_reg, State.setFlag_reg_flag, flagByte_eq_one_iff]
    exact s.drawn_flag_iff edge x y n
  case clear =>
    have hflag : (s.drawn edge x y n).2 = false := by
      by_contra hne
      obtain ⟨q, hq, hlit⟩ := (s.drawn_flag_iff edge x y n).mp (by simpa using hne)
      rw [hdark q hq] at hlit
      cases hlit
    rw [State.advance_reg, State.setFlag_reg_flag, hflag]
    rfl
  case others => rw [State.advance_reg, State.setFlag_reg_ne _ _ hr, State.setFrame_reg]
  case pc => rw [State.advance_pc_toNat, State.setFlag_pc, State.setFrame_pc]
  case frame =>
    generalize s.drawn edge x y n = d
    rfl

/-- Settles O38. -/
theorem drwTogglesTheSpriteOnce : Obligations.DrwTogglesTheSpriteOnce := by
  intro x y n s h
  simp only [← State.draws_wrap_iff]
  obtain ⟨t, hdrw, hlit, hcollision, hframe⟩ := execDrwUnder_effect .wrap x y n h
  exact ⟨t, hdrw, hlit, hcollision.mpr, hframe⟩

theorem Framebuffer.eq_of_lit_eq {fb fb' : Framebuffer} (h : ∀ q, fb.lit q = fb'.lit q) : fb = fb' := by
  apply Vector.ext
  intro y hy
  apply BitVec.eq_of_getLsbD_eq
  intro x hx
  exact h (⟨x, hx⟩, ⟨y, hy⟩)

/-- Settles O39: a sprite whose origin is off the screen has every pixel off it. -/
theorem drwUnderClipSkipsOffScreen : Obligations.DrwUnderClipSkipsOffScreen := by
  intro x y n s h
  simp only [← State.draws_clip_iff]
  obtain ⟨t, hdrw, hlit, hcollision, hclear, hframe⟩ := execDrwUnder_effect .clip x y n h
  refine ⟨t, hdrw, hlit, hcollision.mpr, hclear, fun hoff => Framebuffer.eq_of_lit_eq fun q => ?_, hframe⟩
  have hnone : ¬ s.Draws .clip x y n q := by
    rintro ⟨r, c, -, htarget⟩
    obtain ⟨hx, hy⟩ := targetPixel_clip_iff.mp htarget
    have hcolumn : q.1.val < 64 := q.1.isLt
    have hrow : q.2.val < 32 := q.2.isLt
    omega
  rw [Bool.eq_iff_iff, hlit q]
  simp [hnone]

/-- Settles O40. -/
theorem drwBeyondMemoryFaults : Obligations.DrwBeyondMemoryFaults :=
  fun x y n _ hn h => exec_of_faults (.drw x y n hn h)

/-- Settles O41: the second `DRW` draws the same pixels, and of each it finds the opposite of what the first found. -/
theorem drwTwiceRestoresTheFrame : Obligations.DrwTwiceRestoresTheFrame := by
  intro x y n s h
  obtain ⟨t, hdrw, hlit, -, -, -, -, -, hframe⟩ := execDrwUnder_effect .wrap x y n h
  refine ⟨t, hdrw, fun hx hy => ?_⟩
  have hbase : t.base = s.base := by rw [hframe]; rfl
  have hbyte : ∀ a, t.byte a = s.byte a := by rw [hframe]; exact fun _ => rfl
  have hdraws : ∀ q, t.Draws .wrap x y n q ↔ s.Draws .wrap x y n q := fun q => by
    simp only [State.Draws, State.SpriteBit, hbase, hbyte, hx, hy]
  obtain ⟨u, hdrw', hlit', hcollision, -⟩ := execDrwUnder_effect .wrap x y n (s := t) (by rwa [hbase])
  refine ⟨u, hdrw', Framebuffer.eq_of_lit_eq fun q => ?restored, ?collision⟩
  case restored =>
    rw [Bool.eq_iff_iff, hlit', hdraws, hlit]
    by_cases hq : s.Draws .wrap x y n q <;> simp [hq]
  case collision =>
    rw [hcollision]
    refine exists_congr fun q => ?_
    rw [hdraws, ← State.draws_wrap_iff]
    refine and_congr_right fun hq => ?_
    rw [hlit]
    simp [hq]

end Sys2Proof.Machine
end
